-- ==== Sys2Proof/Word.lean ====
section
/-! DEFINITION. Word.lean: the fixed-width values of ExpressHash CORE and their plainest arithmetic
(00_scope.md rules R5 to R11). Every value is unsigned; bit 0 is the least significant (R7). -/

namespace Sys2Proof

/-- A Word: a 32-bit unsigned integer, all arithmetic modulo 2^32 (rules R5, R6). -/
abbrev Word := BitVec 32

/-- A byte, and the 8-bit code of one digest character (rule R5: `BYTE_W`, `HEXCHAR_W`). -/
abbrev Byte := BitVec 8

/-- An input element as delivered on the command port, `ARG[23:0]` (rules R5, R18, R98). -/
abbrev Elem := BitVec 24

/-- The Hash State or the eight working variables a..h: exactly 8 Words (rules R17, R19, R21). -/
abbrev Words8 := Vector Word 8

/-- A Block: exactly 16 Words (rules R17, R24). -/
abbrev Block := Vector Word 16

/-- A Message Schedule: exactly 64 Words (rules R17, R23). -/
abbrev Schedule := Vector Word 64

/-- A Digest: exactly 64 characters (rules R17, R28). -/
abbrev Digest := Vector Byte 64

/-- `ROTR(x, n)`, right rotation of a 32-bit value (rule R8). -/
abbrev rotr (x : Word) (n : Nat) : Word := x.rotateRight n

/-- `SHR(x, n)`, unsigned right shift, zeros entering at the top (rule R9). -/
abbrev shr (x : Word) (n : Nat) : Word := x >>> n

end Sys2Proof
end

