-- ==== Sys2Proof/Config.lean ====
section
/-! DEFINITION. Config.lean: what an implementation fixes, and the free values, which the spec leaves open. Each
free value is a constant without a body, so that no proof can see what it is. -/

namespace Sys2Proof.Config

/-- `CHAR_W`, the width of one input element: the spec's default, 24, of the range 9 to 24 it allows (00_scope.md R5,
92_eei_decisions.md D4, 93_implementation_defined.md U5). DESIGN CHOICE, log 5. -/
def charW : Nat := 24

/-- The `k`-th free word: what a 32-bit data register holds after `rst` was asserted, which the spec calls
unspecified (10_state.md R43, 70_reset_and_hazards.md R300, 93_implementation_defined.md U1, U2). Log 2. -/
opaque freeWord : Nat → Word

/-- The `k`-th free byte: what an element of `DIGEST` holds after `rst` was asserted (R43, R302, U1). Log 2. -/
opaque freeByte : Nat → Byte

end Sys2Proof.Config
end

