-- ==== Sys2Proof/Syntax.lean ====
section
/-! DEFINITION. Syntax.lean: the instructions of spec/opcode_table.json, one constructor per row, the phases
that select the micro-operations, the two encoding spaces and the reasons a code spells nothing. -/

namespace Sys2Proof

/-- The seven commands (30_encoding.md R92) and the nine micro-operations of the sequencer (R101). -/
inductive Instr where
  /-- no operation (44_commands.md R252) -/
  | nop
  /-- open a message (R232) -/
  | start
  /-- deliver the element `c` (R235) -/
  | char (c : Elem)
  /-- close the message, pad, compress, encode (R240) -/
  | final
  /-- read digest character `i` (R245) -/
  | rdchr (i : BitVec 6)
  /-- read `STATUS` (R247) -/
  | rdstat
  /-- return to the IDLE state (R250) -/
  | clear
  /-- push the byte 0x80 (41_preprocessor.md R145) -/
  | pad80
  /-- push one byte 0x00 until `BP = 56` (R146) -/
  | pad00
  /-- write the two length words (R147) -/
  | len
  /-- copy the block into the schedule (42_compression.md R172) -/
  | load
  /-- compute one schedule word (R174) -/
  | sched
  /-- copy the Hash State into the working variables (R175) -/
  | init
  /-- one round (R177) -/
  | round
  /-- add the working variables back into the Hash State (R178) -/
  | accum
  /-- encode one word of the Hash State (43_encoder.md R214) -/
  | enc
  deriving DecidableEq, Repr

/-- The sequencer phases that `PHASE` and `RET` take (10_state.md R33). The codes 10..15 are "never held" and
have no name here (log 6). -/
inductive Phase where
  | REST | PAD80 | PAD00 | LEN | LOAD | SCHED | INIT | ROUND | ACCUM | ENC
  deriving DecidableEq, Repr

/-- The two encoding spaces: a 32-bit word on the command port (format C), or the 4-bit phase code that selects
a micro-operation and has no bits on any port (format SEQ) (30_encoding.md R90, R101). -/
inductive Encoded where
  | port (w : Word)
  | phase (code : BitVec 4)
  deriving DecidableEq, Repr

/-- Why a code spells no instruction: the first failing step of 30_encoding.md R97, or a phase code with no
micro-operation (R33, R101). -/
inductive Illegal where
  /-- `RSV ≠ 0` (R97 step 2) -/
  | rsvNonzero
  /-- `OP ≥ 7` (R97 step 3) -/
  | opReserved
  /-- `ARG ≠ 0` where it must be 0 (R97 step 4) -/
  | argNonzero
  /-- `ARG[23:CHAR_W] ≠ 0` in CHAR, for a `CHAR_W` below 24 (R98) -/
  | elementTooWide
  /-- `ARG[23:6] ≠ 0` in RDCHR (R97 step 5) -/
  | indexTooHigh
  /-- the phase code 0: in REST no micro-operation fires (R33) -/
  | phaseRest
  /-- the phase codes 10..15, never held (R33) -/
  | phaseUnused
  deriving DecidableEq, Repr

/-! Pseudo-instructions and their expansions (30_encoding.md R105). -/

/-- `MSGX c0, ..., c(n-1)`: START, one CHAR per element, FINAL. -/
def Pseudo.msgx (cs : List Elem) : List Instr :=
  .start :: (cs.map .char ++ [.final])

/-- `MSG "s"`: `MSGX` of the codes of the characters of `s`. -/
def Pseudo.msg (s : String) : List Instr :=
  Pseudo.msgx (s.toList.map fun ch => BitVec.ofNat 24 ch.toNat)

/-- `RDDIG`: RDCHR 0 to RDCHR 63. -/
def Pseudo.rddig : List Instr :=
  (List.range 64).map fun i => .rdchr (BitVec.ofNat 6 i)

/-- `HASH "s"`: `MSG "s"` and then `RDDIG`. -/
def Pseudo.hash (s : String) : List Instr :=
  Pseudo.msg s ++ Pseudo.rddig

end Sys2Proof
end

