-- ==== Sys2Proof/WellFormed.lean ====
section
/-! DEFINITION. WellFormed.lean: the checks on what a host writes. The operands of an instruction are bit
vectors of the width their field has (30_encoding.md R98, R99), so an operand cannot be out of its field; what can
be ill formed is a stream that holds something with no bits on the port, a message, and a message's length. -/

namespace Sys2Proof

/-- An instruction the host can send: a command of format C. A micro-operation has "no bits on any port"
(30_encoding.md R90, R101). -/
def Instr.onPort : Instr → Bool
  | .nop => true
  | .start => true
  | .char _ => true
  | .final => true
  | .rdchr _ => true
  | .rdstat => true
  | .clear => true
  | .pad80 => false
  | .pad00 => false
  | .len => false
  | .load => false
  | .sched => false
  | .init => false
  | .round => false
  | .accum => false
  | .enc => false

/-- A command stream is well formed when every item can be sent on the command port (R90, R104). -/
def Stream.wf (p : List Instr) : Bool := p.all Instr.onPort

/-- An element is a byte when it is at most 255 (41_preprocessor.md R141, 00_scope.md R18). -/
def Elem.isByte (c : Elem) : Bool := decide (c.toNat ≤ 255)

/-- A message satisfies the byte-range precondition (R141, R260). -/
def Message.valid (m : List Elem) : Bool := m.all Elem.isByte

/-- The premise of every claim about a digest: fewer than 2^61 elements (R150, R152, R315). -/
def Message.countable (m : List Elem) : Bool := decide (m.length < 2 ^ 61)

end Sys2Proof
end

