-- ==== Sys2Proof/Decode.lean ====
section
/-! DEFINITION. Decode.lean: the decoder of the command port and of the phase codes, total and rejecting by
name (30_encoding.md R91, R92, R97 to R101), and after it the encoder, from the same tables. -/

namespace Sys2Proof

/-! Fields of format C (R91). -/

/-- `OP = w[31:28]`. -/
def opOf (w : Word) : BitVec 4 := w.extractLsb' 28 4
/-- `RSV = w[27:24]`. -/
def rsvOf (w : Word) : BitVec 4 := w.extractLsb' 24 4
/-- `ARG = w[23:0]`. -/
def argOf (w : Word) : BitVec 24 := w.extractLsb' 0 24
/-- The index field of RDCHR, `ARG[5:0]` (R99). -/
def indexOf (arg : BitVec 24) : BitVec 6 := arg.extractLsb' 0 6
/-- The bits of RDCHR's `ARG` that must be 0, `ARG[23:6]` (R92). -/
def indexHighOf (arg : BitVec 24) : BitVec 18 := arg.extractLsb' 6 18

/-- The opcodes whose `ARG` must be 0 (R97 step 4). -/
def takesNoOperand (op : BitVec 4) : Bool :=
  op == 0 || op == 1 || op == 3 || op == 5 || op == 6

/-- The command of a legal opcode (R92, R97 step 6). -/
def commandOf (op : BitVec 4) (arg : BitVec 24) : Instr :=
  if op = 0 then .nop
  else if op = 1 then .start
  else if op = 2 then .char arg
  else if op = 3 then .final
  else if op = 4 then .rdchr (indexOf arg)
  else if op = 5 then .rdstat
  else .clear

/-- Decoding of a command word for a given `CHAR_W`, in the order of R97; with `CHAR_W < 24` the bits `ARG[23:CHAR_W]` of
CHAR are reserved-zero bits too (R98). -/
def decodeWordFor (charW : Nat) (w : Word) : Except Illegal Instr :=
  if rsvOf w ≠ 0 then .error .rsvNonzero
  else if 7 ≤ opOf w then .error .opReserved
  else if takesNoOperand (opOf w) && argOf w != 0 then .error .argNonzero
  else if opOf w = 2 ∧ argOf w >>> charW ≠ 0 then .error .elementTooWide
  else if opOf w = 4 ∧ indexHighOf (argOf w) ≠ 0 then .error .indexTooHigh
  else .ok (commandOf (opOf w) (argOf w))

/-- Decoding of a command word (R97). -/
def decodeWord (w : Word) : Except Illegal Instr := decodeWordFor Config.charW w

/-- The 4-bit code of a phase (10_state.md R33). -/
def Phase.code : Phase → BitVec 4
  | .REST => 0
  | .PAD80 => 1
  | .PAD00 => 2
  | .LEN => 3
  | .LOAD => 4
  | .SCHED => 5
  | .INIT => 6
  | .ROUND => 7
  | .ACCUM => 8
  | .ENC => 9

/-- The phase of a 4-bit code; the codes 10..15 are never held (R33). -/
def Phase.ofCode (c : BitVec 4) : Option Phase :=
  if c = 0 then some .REST
  else if c = 1 then some .PAD80
  else if c = 2 then some .PAD00
  else if c = 3 then some .LEN
  else if c = 4 then some .LOAD
  else if c = 5 then some .SCHED
  else if c = 6 then some .INIT
  else if c = 7 then some .ROUND
  else if c = 8 then some .ACCUM
  else if c = 9 then some .ENC
  else none

/-- The micro-operation that a phase selects; none in REST (R33, 30_encoding.md R101). -/
def Phase.microOp : Phase → Except Illegal Instr
  | .REST => .error .phaseRest
  | .PAD80 => .ok .pad80
  | .PAD00 => .ok .pad00
  | .LEN => .ok .len
  | .LOAD => .ok .load
  | .SCHED => .ok .sched
  | .INIT => .ok .init
  | .ROUND => .ok .round
  | .ACCUM => .ok .accum
  | .ENC => .ok .enc

/-- Decoding of a phase code (R101). -/
def decodePhase (c : BitVec 4) : Except Illegal Instr :=
  match Phase.ofCode c with
  | some p => p.microOp
  | none => .error .phaseUnused

/-- Decoding in either encoding space (R90). -/
def decode : Encoded → Except Illegal Instr
  | .port w => decodeWord w
  | .phase c => decodePhase c

/-! The encoder. -/

/-- A word of format C with `RSV = 0` (R91). -/
def formatC (op : BitVec 4) (arg : BitVec 24) : Word := op ++ 0#4 ++ arg

/-- The code of an instruction, from the tables of R92 and R101. -/
def encode : Instr → Encoded
  | .nop => .port (formatC 0 0)
  | .start => .port (formatC 1 0)
  | .char c => .port (formatC 2 c)
  | .final => .port (formatC 3 0)
  | .rdchr i => .port (formatC 4 (i.setWidth 24))
  | .rdstat => .port (formatC 5 0)
  | .clear => .port (formatC 6 0)
  | .pad80 => .phase 1
  | .pad00 => .phase 2
  | .len => .phase 3
  | .load => .phase 4
  | .sched => .phase 5
  | .init => .phase 6
  | .round => .phase 7
  | .accum => .phase 8
  | .enc => .phase 9

/-- The word the host sends for an instruction; a micro-operation has none (R90). -/
def portWord (i : Instr) : Option Word :=
  match encode i with
  | .port w => some w
  | .phase _ => none

/-- The command words of a stream, in order. -/
def portWords (p : List Instr) : List Word := p.filterMap portWord

/-- The code that a row of spec/opcode_table.json of `nbits` bits with the value `w` stands for: a row of at most
8 bits is a 4-bit phase code, any other a command word (log 11). -/
def tableCode (nbits w : Nat) : Encoded :=
  if nbits ≤ 8 then .phase (BitVec.ofNat 4 w) else .port (BitVec.ofNat 32 w)

/-- The instruction of a row's bits as the opcode table numbers them. -/
def decodeTableWord (nbits w : Nat) : Option Instr :=
  match decode (tableCode nbits w) with
  | .ok i => some i
  | .error _ => none

end Sys2Proof
end

