-- ==== Sys2Proof/Machine/State.lean ====
section
/-! DEFINITION. Machine/State.lean: the complete state of ExpressHash CORE (10_state.md R20) with its two ports,
the reset state (R43), and the reasons a step can stop. -/

namespace Sys2Proof.Machine

/-- One thing the host side does to CORE (00_scope.md R14, 10_state.md R39; log 3). -/
inductive HostInput where
  /-- `cmd_valid = 1` with `cmd_data = w`, held until the word is accepted (44_commands.md R230) -/
  | command (w : Word)
  /-- one step in which the host offers no command and `rst` is not asserted -/
  | idle
  /-- one step in which `rst` is asserted (70_reset_and_hazards.md R300) -/
  | reset
  deriving DecidableEq, Repr

/-- The response codes (30_encoding.md R95). -/
inductive Rc where
  | OK | INVALID_INPUT | SEQ | ILLEGAL
  deriving DecidableEq, Repr

/-- The message states that the three flags code (10_state.md R30). -/
inductive MsgState where
  | IDLE | OPEN | DONE | ERR
  deriving DecidableEq, Repr

/-- The state of CORE. The field names are the spec's; `IN` and `free` are the model's own (log 2, log 3). -/
structure State where
  /-- the Hash State (R21) -/
  H : Words8
  /-- the working variables a..h (R22) -/
  V : Words8
  /-- the Message Schedule (R23) -/
  W : Schedule
  /-- the Block under assembly (R24) -/
  BLK : Block
  /-- the bit-packer's shift register (R25) -/
  PK : Word
  /-- the byte pointer (R26) -/
  BP : BitVec 6
  /-- the count of message bytes (R27) -/
  N : BitVec 61
  /-- the digest characters (R28) -/
  DIGEST : Digest
  /-- a message is open (R30) -/
  OPEN : Bool
  /-- `DIGEST` is valid (R30) -/
  DONE : Bool
  /-- the message failed with InvalidInputError (R30) -/
  ERR : Bool
  /-- the sequencer phase (R33) -/
  PHASE : Phase
  /-- the schedule, round or encoder index (R34) -/
  T : BitVec 6
  /-- the phase to continue in after a block dispatch (R35) -/
  RET : Phase
  /-- the response trace, oldest first (R38) -/
  OUT : List Word
  /-- what the host side will do, in order (log 3) -/
  IN : List HostInput
  /-- how many free values have been drawn (log 2) -/
  free : Nat
  deriving DecidableEq, Repr

/-- Why the machine stops. -/
inductive Fault where
  /-- Raised by SCHED when `T < 16` and by ENC when `T > 7`, where the index would leave its register file, which
  "never occurs" (00_scope.md R12, 20_memory.md R74). SAFE: the model stops where the spec says the machine never is;
  no state that meets `State.Inv` raises it. Log 7. -/
  | indexOutOfRange
  deriving DecidableEq, Repr

/-- Why an instruction has no meaning. -/
inductive Refusal where
  /-- Raised only by an arm of `exec` whose instruction has no meaning yet. SAFE. No arm raises it. -/
  | notModelled (mnemonic : String)
  deriving DecidableEq, Repr

/-- What a meaning answers. -/
abbrev Result := Host.Outcome State Fault Refusal

/-- The machine right after reset: the control state as R43 gives it; the data registers `H`, `V`, `W`, `BLK`, `PK`,
`DIGEST`, which R43 leaves unspecified, at zero (DESIGN CHOICE, UNSAFE, log 1). -/
def State.reset : State where
  H := Vector.replicate 8 0
  V := Vector.replicate 8 0
  W := Vector.replicate 64 0
  BLK := Vector.replicate 16 0
  PK := 0
  BP := 0
  N := 0
  DIGEST := Vector.replicate 64 0
  OPEN := false
  DONE := false
  ERR := false
  PHASE := .REST
  T := 0
  RET := .REST
  OUT := []
  IN := []
  free := 0

end Sys2Proof.Machine
end

