-- ==== Sys2Proof/Machine/Operands.lean ====
section
/-! DEFINITION. Machine/Operands.lean: every operand form (20_memory.md R66, R74), the bit fields of the data
encodings (R61 to R63, 30_encoding.md R98, R102, R103) and the combinational functions of CMP and ENC
(42_compression.md R176, R182 to R187, 43_encoder.md R211). -/

namespace Sys2Proof.Machine

/-! ## Elements, bytes, words -/

/-- The range check on an element, `c > 255`, unsigned (41_preprocessor.md R141). -/
def outOfRange (c : Elem) : Bool := decide (255 < c.toNat)

/-- The byte of an element that passed the check, `b = c[7:0]` (30_encoding.md R98). -/
def elemByte (c : Elem) : Byte := c.extractLsb' 0 8

/-- The packer's next word, `PK[23:0] || b` (41_preprocessor.md R142). -/
def packByte (pk : Word) (b : Byte) : Word := pk.extractLsb' 0 24 ++ b

/-- Four consecutive bytes, the earliest first, as one word: `p0 || p1 || p2 || p3` (20_memory.md R61). -/
def packWord (p0 p1 p2 p3 : Byte) : Word := p0 ++ p1 ++ p2 ++ p3

/-- Byte `k` of a word in arrival order, bits `[31-8k : 24-8k]` (R61). -/
def byteOf (w : Word) (k : Nat) : Byte := w.extractLsb' (24 - 8 * k) 8

/-- Hex digit `j` of a word, most significant first, bits `[31-4j : 28-4j]` (20_memory.md R63). -/
def nibbleOf (w : Word) (j : Nat) : BitVec 4 := w.extractLsb' (28 - 4 * j) 4

/-- The index of the word under assembly, `BP[5:2]` (10_state.md R26). -/
def wordIndex (bp : BitVec 6) : BitVec 4 := bp.extractLsb' 2 4

/-- The number of its bytes already in `PK`, `BP[1:0]` (R26). -/
def byteIndex (bp : BitVec 6) : BitVec 2 := bp.extractLsb' 0 2

/-- The length value `L = zext_64(N) << 3` (41_preprocessor.md R147, R148). -/
def lengthValue (n : BitVec 61) : BitVec 64 := n.setWidth 64 <<< 3

/-- `L[63:32]` (R62, R148). -/
def lengthHigh (n : BitVec 61) : Word := (lengthValue n).extractLsb' 32 32

/-- `L[31:0]` (R62, R148). -/
def lengthLow (n : BitVec 61) : Word := (lengthValue n).extractLsb' 0 32

/-- `hexchar(v)`, the lowercase hexadecimal digit of `v` as an ASCII code (43_encoder.md R211). -/
def hexchar (v : BitVec 4) : Byte :=
  if v ≤ 9 then 0x30 + v.setWidth 8 else 0x57 + v.setWidth 8

/-! ## Indexed reads (20_memory.md R74) -/

/-- `BP[5:2]` is an index into `BLK`: 0..15. -/
theorem wordIndex_lt (bp : BitVec 6) : (wordIndex bp).toNat < 16 := (wordIndex bp).isLt

/-- A 6-bit value is an index into `W`, `K` or `DIGEST`: 0..63. -/
theorem index_lt (i : BitVec 6) : i.toNat < 64 := i.isLt

/-- `DIGEST[i]`, `i` the index field of RDCHR. -/
def readDigest (d : Digest) (i : BitVec 6) : Byte := d[i.toNat]'(index_lt i)

/-- `W[i]` or `K[i]`, `i` the register `T`. -/
def readSchedule (w : Schedule) (i : BitVec 6) : Word := w[i.toNat]'(index_lt i)

/-! ## The six functions of CMP (42_compression.md R182 to R187) -/

/-- `σ0(x)` (R182). -/
def sigma0 (x : Word) : Word := rotr x 7 ^^^ rotr x 18 ^^^ shr x 3

/-- `σ1(x)` (R183). -/
def sigma1 (x : Word) : Word := rotr x 17 ^^^ rotr x 19 ^^^ shr x 10

/-- `S0(a)` (R184). -/
def bigS0 (a : Word) : Word := rotr a 2 ^^^ rotr a 13 ^^^ rotr a 22

/-- `S1(e)` (R185). -/
def bigS1 (e : Word) : Word := rotr e 6 ^^^ rotr e 11 ^^^ rotr e 25

/-- `ch(e,f,g)` (R186). -/
def ch (e f g : Word) : Word := (e &&& f) ^^^ (~~~e &&& g)

/-- `maj(a,b,c)` (R187). -/
def maj (a b c : Word) : Word := (a &&& b) ^^^ (a &&& c) ^^^ (b &&& c)

/-- `σ1(W[t-2]) +32 W[t-7] +32 σ0(W[t-15]) +32 W[t-16]` (R173). For `t ≥ 16` every index is in range (R74). -/
def scheduleWord (w : Schedule) (t : Nat) (h : t < 64) : Word :=
  sigma1 w[t - 2] + w[t - 7] + sigma0 w[t - 15] + w[t - 16]

/-- `temp1` of a round (R176). -/
def temp1 (v : Words8) (k w : Word) : Word := v[7] + bigS1 v[4] + ch v[4] v[5] v[6] + k + w

/-- `temp2` of a round (R176). -/
def temp2 (v : Words8) : Word := bigS0 v[0] + maj v[0] v[1] v[2]

/-- `round(V, k, w)` (R176): all eight results from the variables before the round. -/
def roundFn (v : Words8) (k w : Word) : Words8 :=
  #v[temp1 v k w + temp2 v, v[0], v[1], v[2], v[3] + temp1 v k w, v[4], v[5], v[6]]

/-- `W[0..15] <- BLK[0..15]`, the rest kept (R172). -/
def loadSchedule (b : Block) (w : Schedule) : Schedule :=
  Vector.ofFn fun i => if h : i.val < 16 then b[i.val] else w[i.val]

/-- The eight lane sums `H[i] +32 V[i]` (R178). -/
def addLanes (h v : Words8) : Words8 := Vector.ofFn fun i => h[i.val] + v[i.val]

/-- `DIGEST[8t .. 8t+7] <- hexchar` of the eight digits of `w` (43_encoder.md R214). -/
def writeHex (d : Digest) (t : Nat) (w : Word) : Digest :=
  Vector.ofFn fun i => if i.val / 8 = t then hexchar (nibbleOf w (i.val % 8)) else d[i.val]

end Sys2Proof.Machine
end

