-- ==== Sys2Proof/Machine/Flags.lean ====
section
/-! DEFINITION. Machine/Flags.lean: the three flags `OPEN`, `DONE`, `ERR`, the message state they code, `STATUS`
and the status outputs (10_state.md R30 to R32, R39). No arithmetic writes a flag (R31). -/

namespace Sys2Proof.Machine

/-- The message state that the flags code; none for a combination that does not occur (R30). -/
def State.msgState (s : State) : Option MsgState :=
  match s.OPEN, s.DONE, s.ERR with
  | false, false, false => some .IDLE
  | true, false, false => some .OPEN
  | false, true, false => some .DONE
  | false, false, true => some .ERR
  | _, _, _ => none

/-- Flags of START: `OPEN <- 1 ; DONE <- 0 ; ERR <- 0` (44_commands.md R232). -/
def flagsOpened (s : State) : State := { s with OPEN := true, DONE := false, ERR := false }

/-- Flags of CLEAR: `OPEN <- 0 ; DONE <- 0 ; ERR <- 0` (R250). -/
def flagsCleared (s : State) : State := { s with OPEN := false, DONE := false, ERR := false }

/-- Flags of the exception: `OPEN <- 0 ; ERR <- 1` (60_exceptions.md R272; log 13). -/
def flagsFailed (s : State) : State := { s with OPEN := false, ERR := true }

/-- Flags of the last encoder step: `OPEN <- 0 ; DONE <- 1` (43_encoder.md R214; log 13). -/
def flagsDone (s : State) : State := { s with OPEN := false, DONE := true }

/-- `STATUS` (R32), 28 bits as the `DATA` field holds it: `zext_28(ERR || DONE || OPEN)`. -/
def State.status (s : State) : BitVec 28 :=
  (BitVec.ofBool s.ERR ++ BitVec.ofBool s.DONE ++ BitVec.ofBool s.OPEN).setWidth 28

/-- `cmd_ready` (R39). -/
def State.cmdReady (s : State) : Bool := decide (s.PHASE = .REST)

/-- `open_o` (R39). -/
def State.openOut (s : State) : Bool := s.OPEN

/-- `done_o` (R39). -/
def State.doneOut (s : State) : Bool := s.DONE

/-- `err_o` (R39). -/
def State.errOut (s : State) : Bool := s.ERR

end Sys2Proof.Machine
end

