-- ==== Sys2Proof/Machine/Ops.lean ====
section
/-! DEFINITION. Machine/Ops.lean: the operations that several instructions share: responding, the bit-packer,
block dispatch, taking the one exception and leaving it, and reset. -/

namespace Sys2Proof.Machine

/-! ## Responses (30_encoding.md R94 to R96) -/

/-- The 4-bit code of a response (R95). -/
def Rc.code : Rc → BitVec 4
  | .OK => 0
  | .INVALID_INPUT => 1
  | .SEQ => 2
  | .ILLEGAL => 3

/-- A response word, `RC[3:0] || DATA[27:0]` (R94). -/
def responseWord (rc : Rc) (data : BitVec 28) : Word := rc.code ++ data

/-- `respond(rc, data)`: append the response word to `OUT` (10_state.md R38). -/
def respond (rc : Rc) (data : BitVec 28) (s : State) : State :=
  { s with OUT := s.OUT ++ [responseWord rc data] }

/-- `rsp_valid` with `rsp_data` in the step from `s` to `t`: the word appended to `OUT`, if any (R39). -/
def responseStrobe (s t : State) : Option Word := (t.OUT.drop s.OUT.length).head?

/-! ## The bit-packer (41_preprocessor.md R142, R144) -/

/-- The result `full` of `push` in state `s`: `BP = 63` (R142). -/
def pushFull (s : State) : Bool := s.BP == 63

/-- `push(b)` (R142); its result `full` is `pushFull` of the state before. -/
def push (b : Byte) (s : State) : State :=
  { s with
    PK := packByte s.PK b
    BLK := if byteIndex s.BP = 3 then s.BLK.set (wordIndex s.BP).toNat (packByte s.PK b) (wordIndex_lt s.BP)
      else s.BLK
    BP := s.BP + 1 }

/-- `accept_byte(b)`: push and count (R144); `N` wraps modulo 2^61 (R152). -/
def acceptByte (b : Byte) (s : State) : State :=
  { push b s with N := s.N + 1 }

/-! ## The sequencer (10_state.md R36) -/

/-- `PHASE <- p`, the control transfer of this hardware (00_scope.md R13). -/
def goto (p : Phase) (s : State) : State := { s with PHASE := p }

/-- Hand a complete block to CMP: `RET <- r ; PHASE <- LOAD` in one micro-step (41_preprocessor.md R143). -/
def dispatch (r : Phase) (s : State) : State := { s with RET := r, PHASE := .LOAD }

/-! ## The one exception (60_exceptions.md R270 to R278) -/

/-- TAKING THE EXCEPTION: `raise InvalidInput(c)` (R272). It saves nothing and goes nowhere (R277); the element is not
recorded (R271), so it is no argument. -/
def raiseInvalidInput (s : State) : State := respond .INVALID_INPUT 0 (flagsFailed s)

/-- LEAVING IT: there is no return instruction; START and CLEAR leave the ERR state (R278). What the two have in common is
that the message restarts from nothing: `N <- 0 ; BP <- 0` (44_commands.md R232, R250). -/
def restartMessage (s : State) : State := { s with N := 0, BP := 0 }

/-! ## Reset (70_reset_and_hazards.md R300, R301) -/

/-- `rst` asserted for one step: the control state takes its reset values (10_state.md R43), any command in progress is
abandoned without a response, and each data register takes a free value (unspecified, U1 and U2; log 2). `OUT` is not
cleared (R38), and the host's stream is the host's (R41). -/
def takeReset (s : State) : State :=
  { s with
    H := Vector.ofFn fun i => Config.freeWord (s.free + i.val)
    V := Vector.ofFn fun i => Config.freeWord (s.free + 8 + i.val)
    W := Vector.ofFn fun i => Config.freeWord (s.free + 16 + i.val)
    BLK := Vector.ofFn fun i => Config.freeWord (s.free + 80 + i.val)
    PK := Config.freeWord (s.free + 96)
    DIGEST := Vector.ofFn fun i => Config.freeByte (s.free + 97 + i.val)
    BP := 0
    N := 0
    OPEN := false
    DONE := false
    ERR := false
    PHASE := .REST
    T := 0
    RET := .REST
    free := s.free + 161 }

end Sys2Proof.Machine
end

