-- ==== Sys2Proof/Machine/Cmp.lean ====
section
/-! DEFINITION. Machine/Cmp.lean: the compression engine CMP, micro-operations LOAD, SCHED, INIT, ROUND and ACCUM
(42_compression.md R172, R174, R175, R177, R178). -/

namespace Sys2Proof.Machine

/-- LOAD (R172). -/
def execLoad (s : State) : Result :=
  .next (goto .SCHED { s with W := loadSchedule s.BLK s.W, T := 16 })

/-- SCHED (R174), defined for `T` in 16..63 (R74; log 7). -/
def execSched (s : State) : Result :=
  if s.T.toNat < 16 then .fault .indexOutOfRange
  else
    let w := s.W.set s.T.toNat (scheduleWord s.W s.T.toNat (index_lt s.T)) (index_lt s.T)
    if s.T = 63 then .next (goto .INIT { s with W := w, T := 0 })
    else .next { s with W := w, T := s.T + 1 }

/-- INIT (R175). -/
def execInit (s : State) : Result :=
  .next (goto .ROUND { s with V := s.H, T := 0 })

/-- ROUND (R177). -/
def execRound (s : State) : Result :=
  let v := roundFn s.V (readSchedule romK s.T) (readSchedule s.W s.T)
  if s.T = 63 then .next (goto .ACCUM { s with V := v, T := 0 })
  else .next { s with V := v, T := s.T + 1 }

/-- ACCUM (R178); with `RET = REST` it completes the CHAR that caused the dispatch. -/
def execAccum (s : State) : Result :=
  let t := goto s.RET { s with H := addLanes s.H s.V }
  if s.RET = .REST then .next (respond .OK 0 t) else .next t

end Sys2Proof.Machine
end

