-- ==== Sys2Proof/Machine/Commands.lean ====
section
/-! DEFINITION. Machine/Commands.lean: the meanings of the seven commands and of an illegal word
(44_commands.md). A command is accepted by Machine/Sequencer.lean; the checks here are those of R231 after the
encoding. -/

namespace Sys2Proof.Machine

/-- NOP (R252). -/
def execNop (s : State) : Result := .next (respond .OK 0 s)

/-- START (R232). -/
def execStart (s : State) : Result :=
  .next (respond .OK 0 (flagsOpened (restartMessage { s with H := romHINIT })))

/-- CHAR c (R235). A byte that fills the block dispatches it; the response then comes from ACCUM. -/
def execChar (c : Elem) (s : State) : Result :=
  if s.ERR then .next (respond .INVALID_INPUT 0 s)
  else if !s.OPEN then .next (respond .SEQ 0 s)
  else if outOfRange c then .next (raiseInvalidInput s)
  else if pushFull s then .next (dispatch .REST (acceptByte (elemByte c) s))
  else .next (respond .OK 0 (acceptByte (elemByte c) s))

/-- FINAL (R240). Its response comes from the last ENC. -/
def execFinal (s : State) : Result :=
  if s.ERR then .next (respond .INVALID_INPUT 0 s)
  else if !s.OPEN then .next (respond .SEQ 0 s)
  else .next (goto .PAD80 s)

/-- RDCHR i (R245). -/
def execRdchr (i : BitVec 6) (s : State) : Result :=
  if s.DONE then .next (respond .OK ((readDigest s.DIGEST i).setWidth 28) s)
  else .next (respond .SEQ 0 s)

/-- RDSTAT (R247). -/
def execRdstat (s : State) : Result := .next (respond .OK s.status s)

/-- CLEAR (R250). -/
def execClear (s : State) : Result := .next (respond .OK 0 (restartMessage (flagsCleared s)))

/-- An illegal word, accepted like any other and answered ILLEGAL (R254, 30_encoding.md R100; log 8). -/
def answerIllegal (s : State) : State := respond .ILLEGAL 0 s

end Sys2Proof.Machine
end

