-- ==== Sys2Proof/Machine/Enc.lean ====
section
/-! DEFINITION. Machine/Enc.lean: the digest encoder ENC (43_encoder.md R214). -/

namespace Sys2Proof.Machine

/-- ENC (R214), defined for `T` in 0..7 (20_memory.md R74; log 7); its eighth step completes FINAL. -/
def execEnc (s : State) : Result :=
  if h : s.T.toNat < 8 then
    let t := { s with DIGEST := writeHex s.DIGEST s.T.toNat s.H[s.T.toNat] }
    if s.T = 7 then .next (respond .OK 0 (goto .REST (flagsDone { t with T := 0 })))
    else .next { t with T := s.T + 1 }
  else .fault .indexOutOfRange

end Sys2Proof.Machine
end

