-- ==== Sys2Proof/Machine/Pre.lean ====
section
/-! DEFINITION. Machine/Pre.lean: the padding engine of PRE, micro-operations PAD80, PAD00 and LEN
(41_preprocessor.md R145 to R147). -/

namespace Sys2Proof.Machine

/-- PAD80 (R145). -/
def execPad80 (s : State) : Result :=
  if pushFull s then .next (dispatch .PAD00 (push 0x80 s))
  else .next (goto .PAD00 (push 0x80 s))

/-- PAD00 (R146). -/
def execPad00 (s : State) : Result :=
  if s.BP = 56 then .next (goto .LEN s)
  else if pushFull s then .next (dispatch .PAD00 (push 0x00 s))
  else .next (goto .PAD00 (push 0x00 s))

/-- LEN (R147): the two length words written whole, not through `push`. -/
def execLen (s : State) : Result :=
  .next (dispatch .ENC
    { s with BLK := (s.BLK.set 14 (lengthHigh s.N)).set 15 (lengthLow s.N), BP := 0 })

end Sys2Proof.Machine
end

