-- ==== Sys2Proof/Machine/Sequencer.lean ====
section
/-! DEFINITION. Machine/Sequencer.lean: what fires next (10_state.md R36, R37), the acceptance of a command
(44_commands.md R230) and the consumption of host inputs (log 3). -/

namespace Sys2Proof.Machine

/-- What the next step does. -/
inductive NextStep where
  /-- `rst` is asserted (70_reset_and_hazards.md R300) -/
  | reset
  /-- REST and no command offered: "CORE does not change" (R37) -/
  | rest
  /-- an accepted word that spells no command (30_encoding.md R100) -/
  | illegal
  /-- an accepted command, or the micro-operation of the phase -/
  | run (i : Instr)
  deriving DecidableEq, Repr

/-- The step of an accepted word (R230). -/
def wordStep (w : Word) : NextStep :=
  match decodeWord w with
  | .ok i => .run i
  | .error _ => .illegal

/-- The step without `rst`, by phase: at REST the next word the host offers, elsewhere the micro-operation of the phase,
which needs no input (R37, 30_encoding.md R101). -/
def sequencerStep (s : State) : NextStep :=
  match s.PHASE.microOp, s.IN with
  | .ok i, _ => .run i
  | .error _, .command w :: _ => wordStep w
  | .error _, _ => .rest

/-- What the next step does: reset has priority over everything (60_exceptions.md R276). -/
def nextStep (s : State) : NextStep :=
  match s.IN with
  | .reset :: _ => .reset
  | _ => sequencerStep s

/-- The host inputs left after this step: an idle or reset step passes, a command word is taken when it is accepted and
otherwise waits, "not lost, not reordered and not inspected" (R230). -/
def inputAfter (s : State) : List HostInput :=
  match s.IN with
  | [] => []
  | .command w :: rest => if s.cmdReady then rest else .command w :: rest
  | .idle :: rest => rest
  | .reset :: rest => rest

/-- The state after the host input of this step is taken. -/
def consumeInput (s : State) : State := { s with IN := inputAfter s }

/-- The value of `T` with which a phase can be entered: kept where the phase's index is in range, else the value the
sequencer enters the phase with (R36, R74). -/
def entryT (p : Phase) (t : BitVec 6) : BitVec 6 :=
  match p with
  | .SCHED => if t.toNat < 16 then 16 else t
  | .ENC => if t.toNat < 8 then t else 0
  | _ => t

/-- `s` set up so that its next step runs exactly the instruction of a code: a command word is offered first at REST; a
phase code is made the sequencer's phase (R36: (`PHASE`, `T`, `RET`) plays the part of a program counter; log 12). -/
def placeCode (e : Encoded) (s : State) : State :=
  match e with
  | .port w => { s with PHASE := .REST, IN := .command w :: s.IN }
  | .phase c =>
    match Phase.ofCode c with
    | some p => { s with PHASE := p, T := entryT p s.T, IN := .idle :: s.IN }
    | none => s

end Sys2Proof.Machine
end

