-- ==== Sys2Proof/Machine/Dispatch.lean ====
section
/-! DEFINITION. Machine/Dispatch.lean: one arm per instruction, each a direct call of its meaning. -/

namespace Sys2Proof.Machine

/-- The meaning of an instruction. -/
def exec (i : Instr) (s : State) : Host.Outcome State Fault Refusal :=
  match i with
  | .nop => Sys2Proof.Machine.execNop s
  | .start => Sys2Proof.Machine.execStart s
  | .char c => Sys2Proof.Machine.execChar c s
  | .final => Sys2Proof.Machine.execFinal s
  | .rdchr n => Sys2Proof.Machine.execRdchr n s
  | .rdstat => Sys2Proof.Machine.execRdstat s
  | .clear => Sys2Proof.Machine.execClear s
  | .pad80 => Sys2Proof.Machine.execPad80 s
  | .pad00 => Sys2Proof.Machine.execPad00 s
  | .len => Sys2Proof.Machine.execLen s
  | .load => Sys2Proof.Machine.execLoad s
  | .sched => Sys2Proof.Machine.execSched s
  | .init => Sys2Proof.Machine.execInit s
  | .round => Sys2Proof.Machine.execRound s
  | .accum => Sys2Proof.Machine.execAccum s
  | .enc => Sys2Proof.Machine.execEnc s

end Sys2Proof.Machine
end

