-- ==== Sys2Proof/Machine/Step.lean ====
section
/-! DEFINITION. Machine/Step.lean: the step relation of 10_state.md R37, one micro-step, one acceptance, one step of
reset or one step of rest at a time. -/

namespace Sys2Proof.Machine

/-- One step. -/
def step (s : State) : Host.Outcome State Fault Refusal :=
  match nextStep s with
  | .reset => .next (takeReset (consumeInput s))
  | .rest => .next (consumeInput s)
  | .illegal => .next (answerIllegal (consumeInput s))
  | .run i => exec i (consumeInput s)

/-- `s` with the instruction of a row's bits as the one the next step runs. -/
def State.withFetchWord (s : State) (nbits w : Nat) : State := placeCode (tableCode nbits w) s

end Sys2Proof.Machine
end

