-- ==== Sys2Proof/Machine/Hash.lean ====
section
/-! DEFINITION. Machine/Hash.lean: the pure functions of the hash contract, independent of any register
(00_scope.md R16): `pad` (41_preprocessor.md R150), the schedule, `compress` and `compress_all` (42_compression.md
R173, R180, R181), `hex8` and `encode` (43_encoder.md R212) and `hash` (44_commands.md R260). -/

namespace Sys2Proof.Machine

/-! ## Padding (R149, R150) -/

/-- `z = (55 - n) mod 64`, the number of zero bytes (R149). -/
def padZeros (n : Nat) : Nat := (119 - n % 64) % 64

/-- Every four consecutive bytes as one word (R61, R150). -/
def packWords : List Byte → List Word
  | p0 :: p1 :: p2 :: p3 :: rest => packWord p0 p1 p2 p3 :: packWords rest
  | _ => []

/-- `pad(m)` (R150). -/
def pad (m : List Byte) : List Word :=
  let len : BitVec 64 := BitVec.ofNat 64 (8 * m.length)
  packWords (m ++ [0x80] ++ List.replicate (padZeros m.length) 0x00) ++
    [len.extractLsb' 32 32, len.extractLsb' 0 32]

/-! ## Compression (R173, R180, R181) -/

/-- The schedule after `n` steps of the recurrence: `w[0..15]` is the block, `w[16 .. 15+n]` is computed (R173). -/
def scheduleAfter (b : Block) (w : Schedule) : Nat → Schedule
  | 0 => loadSchedule b w
  | n + 1 =>
    let u := scheduleAfter b w n
    if h : 16 + n < 64 then u.set (16 + n) (scheduleWord u (16 + n) h) else u

/-- The 64-word Message Schedule of a block (R173, R180). -/
def schedule (b : Block) : Schedule := scheduleAfter b (Vector.replicate 64 0) 48

/-- `v_n`: the working variables after `n` rounds with the schedule `w` (R180). -/
def roundsAfter (w : Schedule) (v : Words8) : Nat → Words8
  | 0 => v
  | n + 1 => if h : n < 64 then roundFn (roundsAfter w v n) romK[n] w[n] else roundsAfter w v n

/-- `compress(h, blk)` (R180). -/
def compress (h : Words8) (b : Block) : Words8 := addLanes h (roundsAfter (schedule b) h 64)

/-- The first sixteen words of a sequence as a block. -/
def blockOf (ws : List Word) : Block := Vector.ofFn fun i => ws.getD i.val 0

/-- `compress` folded over `m` blocks, first to last. -/
def compressBlocks : Nat → Words8 → List Word → Words8
  | 0, h, _ => h
  | m + 1, h, ws => compressBlocks m (compress h (blockOf ws)) (ws.drop 16)

/-- `compress_all(h, ws)`, for a word sequence whose length is a multiple of 16 (R181). -/
def compressAll (h : Words8) (ws : List Word) : Words8 := compressBlocks (ws.length / 16) h ws

/-! ## Encoding (R212) -/

/-- `hex8(w)`: character `j` is `hexchar(w[31-4j : 28-4j])`. -/
def hex8 (w : Word) : List Byte := (List.range 8).map fun j => hexchar (nibbleOf w j)

/-- `encode(h)`: character `8i + j` is `hexchar(h[i][31-4j : 28-4j])`. -/
def encodeDigest (h : Words8) : Digest :=
  Vector.ofFn fun k => hexchar (nibbleOf (h[k.val / 8]'(by omega)) (k.val % 8))

/-! ## The hash contract (R260) -/

/-- What `hash` answers: 64 characters, or the one error. -/
inductive HashResult where
  | digest (d : Digest)
  | invalidInput
  deriving DecidableEq, Repr

/-- The digest of a byte sequence: `encode(compress_all(HINIT, pad(m)))`. -/
def digestOf (m : List Byte) : Digest := encodeDigest (compressAll romHINIT (pad m))

/-- `hash(s)` (R260). -/
def hashOf (cs : List Elem) : HashResult :=
  if cs.any outOfRange then .invalidInput else .digest (digestOf (cs.map elemByte))

end Sys2Proof.Machine
end

