-- ==== Sys2Proof/Safety.lean ====
section
/-! DEFINITION. Safety.lean: what a safe state is, in the terms the statements use: the invariant of the machine, the
message state machine of 44_commands.md R256, what the hidden state knows of the message so far (10_state.md R40), and
what the host can see. -/

namespace Sys2Proof.Machine

/-- The phases from LOAD to ENC, in which no byte of a block is under assembly. -/
def afterBlock : Phase → Bool
  | .LOAD => true
  | .SCHED => true
  | .INIT => true
  | .ROUND => true
  | .ACCUM => true
  | .ENC => true
  | .REST => false
  | .PAD80 => false
  | .PAD00 => false
  | .LEN => false

/-- The values `T` takes in a phase (10_state.md R34, R36). -/
def indexLegal : Phase → BitVec 6 → Prop
  | .SCHED, t => 16 ≤ t.toNat
  | .ROUND, _ => True
  | .ENC, t => t.toNat ≤ 7
  | .REST, t => t = 0
  | .PAD80, t => t = 0
  | .PAD00, t => t = 0
  | .LEN, t => t = 0
  | .LOAD, t => t = 0
  | .INIT, t => t = 0
  | .ACCUM, t => t = 0

/-- The invariant of the machine. -/
structure State.Inv (s : State) : Prop where
  /-- at most one flag is 1 (R30) -/
  oneFlag : s.msgState ≠ none
  /-- a command in progress is one of an open message (R36) -/
  busyOpen : s.PHASE ≠ .REST → s.msgState = some .OPEN
  /-- `T` is in the range of its phase (R34, 20_memory.md R74) -/
  index : indexLegal s.PHASE s.T
  /-- `RET` takes only REST, PAD00 and ENC (R35) -/
  returnPhase : s.RET = .REST ∨ s.RET = .PAD00 ∨ s.RET = .ENC
  /-- LEN fires with `BP = 56` (41_preprocessor.md R147) -/
  lengthPointer : s.PHASE = .LEN → s.BP = 56
  /-- no byte is under assembly while a block is compressed or the digest is encoded (R143, R147) -/
  blockPointer : afterBlock s.PHASE = true → s.BP = 0
  /-- between the commands of an open message `BP = N mod 64` (10_state.md R40) -/
  countPointer : s.OPEN = true → s.PHASE = .REST ∨ (afterBlock s.PHASE = true ∧ s.RET = .REST) →
    s.BP.toNat = s.N.toNat % 64
  /-- ENC is entered with `RET = ENC` (43_encoder.md R214) -/
  encReturn : s.PHASE = .ENC → s.RET = .ENC
  /-- when `DONE = 1` the digest is that of the Hash State (R214, R215) -/
  digestWhole : s.DONE = true → s.DIGEST = encodeDigest s.H
  /-- before encoder step `T`, the first `8·T` characters are written (R214) -/
  digestPart : s.PHASE = .ENC → ∀ k : Nat, ∀ h : k < 64, k < 8 * s.T.toNat → s.DIGEST[k] = (encodeDigest s.H)[k]

/-! ## The message state machine (44_commands.md R256) -/

/-- The value of `STATUS` in a message state (R247). -/
def MsgState.statusValue : MsgState → BitVec 28
  | .IDLE => 0
  | .OPEN => 1
  | .DONE => 2
  | .ERR => 4

/-- CHAR with an element above 255 fails an open message. -/
def MsgState.afterChar (m : MsgState) (c : Elem) : MsgState :=
  if m = .OPEN ∧ 255 < c.toNat then .ERR else m

/-- FINAL closes an open message. -/
def MsgState.afterFinal (m : MsgState) : MsgState := if m = .OPEN then .DONE else m

/-- The message state after a command; a micro-operation is no command and has no row in the table. -/
def MsgState.after (m : MsgState) (i : Instr) : MsgState :=
  match i with
  | .nop => m
  | .start => .OPEN
  | .char c => m.afterChar c
  | .final => m.afterFinal
  | .rdchr _ => m
  | .rdstat => m
  | .clear => .IDLE
  | .pad80 => m
  | .pad00 => m
  | .len => m
  | .load => m
  | .sched => m
  | .init => m
  | .round => m
  | .accum => m
  | .enc => m

/-- The response code of CHAR. -/
def MsgState.answerChar (m : MsgState) (c : Elem) : Rc :=
  if m = .ERR then .INVALID_INPUT
  else if m ≠ .OPEN then .SEQ
  else if 255 < c.toNat then .INVALID_INPUT
  else .OK

/-- The response code of FINAL. -/
def MsgState.answerFinal (m : MsgState) : Rc :=
  if m = .ERR then .INVALID_INPUT else if m ≠ .OPEN then .SEQ else .OK

/-- The response code a command is answered with. -/
def MsgState.answer (m : MsgState) (i : Instr) : Rc :=
  match i with
  | .nop => .OK
  | .start => .OK
  | .char c => m.answerChar c
  | .final => m.answerFinal
  | .rdchr _ => if m = .DONE then .OK else .SEQ
  | .rdstat => .OK
  | .clear => .OK
  | .pad80 => .OK
  | .pad00 => .OK
  | .len => .OK
  | .load => .OK
  | .sched => .OK
  | .init => .OK
  | .round => .OK
  | .accum => .OK
  | .enc => .OK

/-- The data a command is answered with in the message state `m`: 28 bits, zero but for RDCHR and RDSTAT. -/
def State.answerData (s : State) (m : MsgState) (i : Instr) : BitVec 28 :=
  match i with
  | .nop => 0
  | .start => 0
  | .char _ => 0
  | .final => 0
  | .rdchr n => if m = .DONE then (readDigest s.DIGEST n).setWidth 28 else 0
  | .rdstat => m.statusValue
  | .clear => 0
  | .pad80 => 0
  | .pad00 => 0
  | .len => 0
  | .load => 0
  | .sched => 0
  | .init => 0
  | .round => 0
  | .accum => 0
  | .enc => 0

/-- The micro-steps of a command after its acceptance at REST (70_reset_and_hazards.md R321). -/
def commandSteps (s : State) (i : Instr) : Nat :=
  match i with
  | .nop => 0
  | .start => 0
  | .char c => if s.ERR = false ∧ s.OPEN = true ∧ c.toNat ≤ 255 ∧ s.BP.toNat = 63 then 115 else 0
  | .final =>
    if s.ERR = false ∧ s.OPEN = true then
      if s.N.toNat % 64 ≤ 55 then 181 - s.N.toNat % 64 else 360 - s.N.toNat % 64
    else 0
  | .rdchr _ => 0
  | .rdstat => 0
  | .clear => 0
  | .pad80 => 0
  | .pad00 => 0
  | .len => 0
  | .load => 0
  | .sched => 0
  | .init => 0
  | .round => 0
  | .accum => 0
  | .enc => 0

/-- The micro-steps of an accepted word; none for a word that spells no command. -/
def microSteps (s : State) (w : Word) : Nat :=
  match decodeWord w with
  | .ok i => commandSteps s i
  | .error _ => 0

/-- The transition table of the sequencer for a phase other than REST: next `PHASE`, `T`, `RET` (10_state.md R36). -/
def sequencerTable (s : State) : Phase × BitVec 6 × Phase :=
  match s.PHASE with
  | .REST => (.REST, 0, s.RET)
  | .PAD80 => if s.BP = 63 then (.LOAD, 0, .PAD00) else (.PAD00, 0, s.RET)
  | .PAD00 => if s.BP = 56 then (.LEN, 0, s.RET) else if s.BP = 63 then (.LOAD, 0, .PAD00) else (.PAD00, 0, s.RET)
  | .LEN => (.LOAD, 0, .ENC)
  | .LOAD => (.SCHED, 16, s.RET)
  | .SCHED => if s.T.toNat < 63 then (.SCHED, s.T + 1, s.RET) else (.INIT, 0, s.RET)
  | .INIT => (.ROUND, 0, s.RET)
  | .ROUND => if s.T.toNat < 63 then (.ROUND, s.T + 1, s.RET) else (.ACCUM, 0, s.RET)
  | .ACCUM => (s.RET, 0, s.RET)
  | .ENC => if s.T.toNat < 7 then (.ENC, s.T + 1, s.RET) else (.REST, 0, s.RET)

/-- What `push(b)` does to the packer, the pointer and the block, by arithmetic (41_preprocessor.md R142). -/
structure Pushed (b : Byte) (s t : State) : Prop where
  /-- shifted left by 8, the new byte in bits 7:0 -/
  packer : t.PK.toNat = (256 * s.PK.toNat + b.toNat) % 2 ^ 32
  pointer : t.BP.toNat = (s.BP.toNat + 1) % 64
  /-- on every fourth push the new word is written, every other element is kept -/
  block : ∀ j : Nat, ∀ h : j < 16,
    t.BLK[j] = if s.BP.toNat % 4 = 3 ∧ j = s.BP.toNat / 4 then t.PK else s.BLK[j]

/-! ## The message so far (10_state.md R40) -/

/-- What the hidden state holds at REST in state OPEN after the message bytes `m` have been accepted. -/
structure State.Tracks (m : List Byte) (s : State) : Prop where
  rest : s.PHASE = .REST
  opened : s.msgState = some .OPEN
  count : s.N = BitVec.ofNat 61 m.length
  pointer : s.BP = BitVec.ofNat 6 m.length
  /-- `H` is the chaining value of the whole blocks so far -/
  chain : s.H = compressAll romHINIT (packWords (m.take (64 * (m.length / 64))))
  /-- the whole words of the block under assembly hold their four bytes each, big-endian -/
  block : ∀ q : Nat, ∀ h : q / 4 < 16, q / 4 < m.length % 64 / 4 →
    byteOf s.BLK[q / 4] (q % 4) = m.getD (64 * (m.length / 64) + q) 0
  /-- the low bytes of `PK` are the bytes of the word under assembly -/
  packer : ∀ q : Nat, q < m.length % 4 →
    byteOf s.PK (4 - m.length % 4 + q) = m.getD (m.length - m.length % 4 + q) 0

/-! ## What the host can see (10_state.md R39, R40) -/

/-- All state but the data registers that reset leaves unspecified (R43) is equal. -/
structure State.SameControl (s u : State) : Prop where
  BP : s.BP = u.BP
  N : s.N = u.N
  OPEN : s.OPEN = u.OPEN
  DONE : s.DONE = u.DONE
  ERR : s.ERR = u.ERR
  PHASE : s.PHASE = u.PHASE
  T : s.T = u.T
  RET : s.RET = u.RET
  OUT : s.OUT = u.OUT
  IN : s.IN = u.IN
  free : s.free = u.free

/-- The responses and the status outputs of a state, or nothing when the machine stopped. -/
def visible : Result → Option (List Word × Bool × Bool × Bool × Bool)
  | .next s => some (s.OUT, s.cmdReady, s.openOut, s.doneOut, s.errOut)
  | .fault _ => none
  | .refused _ => none

end Sys2Proof.Machine
end

