-- ==== Sys2Proof/Certificates/Slice0/Obligations.lean ====
section
/-! DEFINITION. Certificates/Slice0/Obligations.lean: the statements for the provers, from the numbered rules of spec/.
None of them rests on the zero that `State.reset` gives a data register (log 1). -/

open Sys2Proof Sys2Proof.Machine

/-! ## Encoding -/

/-- A code decodes to an instruction exactly when it is the encoding of that instruction: decode of encode is the
identity for every operand, and every code that is no encoding is rejected (30_encoding.md R92, R97 to R101). -/
def Obligations.DecodeInvertsEncodeExactly : Prop :=
  ∀ (e : Encoded) (i : Instr), decode e = .ok i ↔ encode i = e

/-- 30_encoding.md R92: a word spells the command of a row exactly when `(w AND mask) = match`, with the row's operand, and
it is illegal exactly when it matches no row. -/
def Obligations.WordSpellsCommandByMaskAndMatch : Prop :=
  ∀ w : Word,
    (decodeWord w = .ok .nop ↔ w &&& 0xFFFFFFFF#32 = 0x00000000#32) ∧
    (decodeWord w = .ok .start ↔ w &&& 0xFFFFFFFF#32 = 0x10000000#32) ∧
    (∀ c : Elem, decodeWord w = .ok (.char c) ↔ w &&& 0xFF000000#32 = 0x20000000#32 ∧ c.toNat = w.toNat % 2 ^ 24) ∧
    (decodeWord w = .ok .final ↔ w &&& 0xFFFFFFFF#32 = 0x30000000#32) ∧
    (∀ n : BitVec 6, decodeWord w = .ok (.rdchr n) ↔ w &&& 0xFFFFFFC0#32 = 0x40000000#32 ∧ n.toNat = w.toNat % 2 ^ 6) ∧
    (decodeWord w = .ok .rdstat ↔ w &&& 0xFFFFFFFF#32 = 0x50000000#32) ∧
    (decodeWord w = .ok .clear ↔ w &&& 0xFFFFFFFF#32 = 0x60000000#32) ∧
    ((∃ e, decodeWord w = .error e) ↔
      w &&& 0xFFFFFFFF#32 ≠ 0x00000000#32 ∧ w &&& 0xFFFFFFFF#32 ≠ 0x10000000#32 ∧
      w &&& 0xFF000000#32 ≠ 0x20000000#32 ∧ w &&& 0xFFFFFFFF#32 ≠ 0x30000000#32 ∧
      w &&& 0xFFFFFFC0#32 ≠ 0x40000000#32 ∧ w &&& 0xFFFFFFFF#32 ≠ 0x50000000#32 ∧
      w &&& 0xFFFFFFFF#32 ≠ 0x60000000#32)

/-- 30_encoding.md R98, last sentence: for an element width below 24 the bits `ARG[23:CHAR_W]` of CHAR are reserved and the
word is illegal when one of them is 1; otherwise the element is `ARG` as it is. -/
def Obligations.NarrowElementWidthReservesUpperBits : Prop :=
  ∀ (charW : Nat) (w : Word), 9 ≤ charW → charW ≤ 24 → w &&& 0xFF000000#32 = 0x20000000#32 →
    (w.toNat % 2 ^ 24 < 2 ^ charW → decodeWordFor charW w = .ok (.char (BitVec.ofNat 24 w.toNat))) ∧
    (2 ^ charW ≤ w.toNat % 2 ^ 24 → decodeWordFor charW w = .error .elementTooWide)

/-- Words written out from the encodings of 30_encoding.md R92, R101 and R104 decode to the instructions they stand for. -/
def Obligations.WrittenWordsDecodeToTheirInstructions : Prop :=
  decodeWord 0x00000000#32 = .ok .nop ∧ decodeWord 0x10000000#32 = .ok .start ∧
  decodeWord 0x20000061#32 = .ok (.char 0x61) ∧ decodeWord 0x20000100#32 = .ok (.char 0x100) ∧
  decodeWord 0x30000000#32 = .ok .final ∧ decodeWord 0x4000003F#32 = .ok (.rdchr 63) ∧
  decodeWord 0x50000000#32 = .ok .rdstat ∧ decodeWord 0x60000000#32 = .ok .clear ∧
  decodePhase 1#4 = .ok .pad80 ∧ decodePhase 5#4 = .ok .sched ∧ decodePhase 9#4 = .ok .enc

/-! ## The step -/

/-- 44_commands.md R230: at REST an offered word that decodes to a command is accepted and the command's rule runs; the
word leaves the port. -/
def Obligations.StepRunsTheAcceptedCommand : Prop :=
  ∀ (s : State) (w : Word) (rest : List HostInput) (i : Instr),
    s.PHASE = .REST → s.IN = .command w :: rest → decodeWord w = .ok i →
    step s = exec i { s with IN := rest }

/-- 30_encoding.md R101, 10_state.md R37: outside REST the micro-operation of the phase runs, needs no input, and leaves an
offered command word waiting (an idle step of the host passes, log 3). -/
def Obligations.StepRunsTheMicroOperationOfThePhase : Prop :=
  ∀ (s : State) (p : Phase) (i : Instr),
    (p, i) ∈ [(Phase.PAD80, Instr.pad80), (.PAD00, .pad00), (.LEN, .len), (.LOAD, .load), (.SCHED, .sched),
      (.INIT, .init), (.ROUND, .round), (.ACCUM, .accum), (.ENC, .enc)] →
    s.PHASE = p →
    (s.IN = [] → step s = exec i s) ∧
    (∀ w rest, s.IN = .command w :: rest → step s = exec i s) ∧
    (∀ rest, s.IN = .idle :: rest → step s = exec i { s with IN := rest })

/-- 10_state.md R37: at REST, "if the host offers none, CORE does not change". -/
def Obligations.RestWithoutCommandChangesNothing : Prop :=
  ∀ s : State, s.PHASE = .REST →
    (s.IN = [] → step s = .next s) ∧
    (∀ rest, s.IN = .idle :: rest → step s = .next { s with IN := rest })

/-- 44_commands.md R254: a word that matches no row of 30_encoding.md R92 is accepted, answered ILLEGAL, and changes nothing
in any state. -/
def Obligations.IllegalWordIsAnsweredAndChangesNothing : Prop :=
  ∀ (s : State) (w : Word) (rest : List HostInput),
    s.PHASE = .REST → s.IN = .command w :: rest →
    w ≠ 0x00000000#32 → w ≠ 0x10000000#32 → w &&& 0xFF000000#32 ≠ 0x20000000#32 → w ≠ 0x30000000#32 →
    w &&& 0xFFFFFFC0#32 ≠ 0x40000000#32 → w ≠ 0x50000000#32 → w ≠ 0x60000000#32 →
    step s = .next { s with IN := rest, OUT := s.OUT ++ [0x30000000#32] }

/-- 70_reset_and_hazards.md R300, R301: `rst` may be asserted in any state, in the middle of a command too; the control state
takes its reset values, no command is accepted and no response is produced. -/
def Obligations.ResetTakesPriorityInEveryState : Prop :=
  ∀ (s : State) (rest : List HostInput), s.IN = .reset :: rest →
    ∃ t, step s = .next t ∧ t.OPEN = false ∧ t.DONE = false ∧ t.ERR = false ∧ t.PHASE = .REST ∧ t.T = 0 ∧
      t.RET = .REST ∧ t.BP = 0 ∧ t.N = 0 ∧ t.OUT = s.OUT ∧ t.IN = rest ∧
      t.cmdReady = true ∧ t.openOut = false ∧ t.doneOut = false ∧ t.errOut = false

/-- 10_state.md R43: the control values of the reset state, and its status outputs (R301). The data registers are
not mentioned: their reset values are the model's own (log 1). -/
def Obligations.ResetStateControlValues : Prop :=
  State.reset.OPEN = false ∧ State.reset.DONE = false ∧ State.reset.ERR = false ∧ State.reset.PHASE = .REST ∧
  State.reset.T = 0 ∧ State.reset.RET = .REST ∧ State.reset.BP = 0 ∧ State.reset.N = 0 ∧
  State.reset.msgState = some .IDLE ∧ State.reset.cmdReady = true

/-! ## The commands -/

/-- 44_commands.md R252. -/
def Obligations.NopRespondsOkAndChangesNothing : Prop :=
  decodeWord 0x00000000#32 = .ok .nop ∧
  ∀ s : State, exec .nop s = .next { s with OUT := s.OUT ++ [0x00000000#32] }

/-- 44_commands.md R232, with the words of 40_constants.md R122; every other register is unchanged. -/
def Obligations.StartOpensAMessage : Prop :=
  decodeWord 0x10000000#32 = .ok .start ∧
  ∀ s : State, exec .start s = .next { s with
    H := #v[0x6a09e667, 0xbb67ae85, 0x3c6ef372, 0xa54ff53a, 0x510e527f, 0x9b05688c, 0x1f83d9ab, 0x5be0cd19],
    N := 0, BP := 0, OPEN := true, DONE := false, ERR := false, OUT := s.OUT ++ [0x00000000#32] }

/-- 44_commands.md R235: every case of CHAR in the order of its checks (R231), the exception of 60_exceptions.md R272 in its
place. An accepted byte is pushed and counted and nothing else changes but the response, or, when it fills the block, the
dispatch. -/
def Obligations.CharFollowsItsChecks : Prop :=
  (∀ c : Elem, decodeWord (0x20000000#32 ||| c.setWidth 32) = .ok (.char c)) ∧
  ∀ (s : State) (c : Elem),
    if s.ERR = true then exec (.char c) s = .next { s with OUT := s.OUT ++ [0x10000000#32] }
    else if s.OPEN = false then exec (.char c) s = .next { s with OUT := s.OUT ++ [0x20000000#32] }
    else if 255 < c.toNat then
      exec (.char c) s = .next { s with OPEN := false, ERR := true, OUT := s.OUT ++ [0x10000000#32] }
    else ∃ t, exec (.char c) s = .next t ∧ Pushed (BitVec.ofNat 8 c.toNat) s t ∧
      t.N.toNat = (s.N.toNat + 1) % 2 ^ 61 ∧
      if s.BP.toNat = 63 then
        t = { s with PK := t.PK, BP := t.BP, BLK := t.BLK, N := t.N, RET := .REST, PHASE := .LOAD }
      else t = { s with PK := t.PK, BP := t.BP, BLK := t.BLK, N := t.N, OUT := s.OUT ++ [0x00000000#32] }

/-- 44_commands.md R240, the acceptance of FINAL: its checks, and the transfer to PAD80. -/
def Obligations.FinalFollowsItsChecks : Prop :=
  decodeWord 0x30000000#32 = .ok .final ∧
  ∀ s : State,
    if s.ERR = true then exec .final s = .next { s with OUT := s.OUT ++ [0x10000000#32] }
    else if s.OPEN = false then exec .final s = .next { s with OUT := s.OUT ++ [0x20000000#32] }
    else exec .final s = .next { s with PHASE := .PAD80 }

/-- 44_commands.md R245. -/
def Obligations.RdchrReturnsTheCharacter : Prop :=
  (∀ n : BitVec 6, decodeWord (0x40000000#32 ||| n.setWidth 32) = .ok (.rdchr n)) ∧
  ∀ (s : State) (n : BitVec 6) (h : n.toNat < 64),
    if s.DONE = true then exec (.rdchr n) s = .next { s with OUT := s.OUT ++ [s.DIGEST[n.toNat].setWidth 32] }
    else exec (.rdchr n) s = .next { s with OUT := s.OUT ++ [0x20000000#32] }

/-- 44_commands.md R247: STATUS is `ERR || DONE || OPEN`, and in the states of the invariant only 0, 1, 2 and 4 occur. -/
def Obligations.RdstatReturnsTheStatus : Prop :=
  decodeWord 0x50000000#32 = .ok .rdstat ∧
  ∀ s : State, ∃ r : Word, exec .rdstat s = .next { s with OUT := s.OUT ++ [r] } ∧
    r.toNat = 4 * s.ERR.toNat + 2 * s.DONE.toNat + s.OPEN.toNat ∧
    (s.Inv → r = 0x0#32 ∧ s.msgState = some .IDLE ∨ r = 0x1#32 ∧ s.msgState = some .OPEN ∨
      r = 0x2#32 ∧ s.msgState = some .DONE ∨ r = 0x4#32 ∧ s.msgState = some .ERR)

/-- 44_commands.md R250: the data registers are not written. -/
def Obligations.ClearReturnsToIdle : Prop :=
  decodeWord 0x60000000#32 = .ok .clear ∧
  ∀ s : State, exec .clear s = .next { s with
    OPEN := false, DONE := false, ERR := false, N := 0, BP := 0, OUT := s.OUT ++ [0x00000000#32] }

/-! ## PRE -/

/-- 41_preprocessor.md R145, with everything PAD80 leaves unchanged. -/
def Obligations.Pad80PushesTheMarker : Prop :=
  decodePhase 1#4 = .ok .pad80 ∧
  ∀ s : State, ∃ t, exec .pad80 s = .next t ∧ Pushed 0x80#8 s t ∧
    if s.BP.toNat = 63 then t = { s with PK := t.PK, BP := t.BP, BLK := t.BLK, RET := .PAD00, PHASE := .LOAD }
    else t = { s with PK := t.PK, BP := t.BP, BLK := t.BLK, PHASE := .PAD00 }

/-- 41_preprocessor.md R146, with everything PAD00 leaves unchanged. -/
def Obligations.Pad00FillsWithZeros : Prop :=
  decodePhase 2#4 = .ok .pad00 ∧
  ∀ s : State,
    if s.BP.toNat = 56 then exec .pad00 s = .next { s with PHASE := .LEN }
    else ∃ t, exec .pad00 s = .next t ∧ Pushed 0x00#8 s t ∧
      if s.BP.toNat = 63 then t = { s with PK := t.PK, BP := t.BP, BLK := t.BLK, RET := .PAD00, PHASE := .LOAD }
      else t = { s with PK := t.PK, BP := t.BP, BLK := t.BLK, PHASE := .PAD00 }

/-- 41_preprocessor.md R147 and R148: the two words are those of `8·N` as an exact 64-bit value; `PK` and every other
element of `BLK` are left as they were. -/
def Obligations.LenWritesTheBitLength : Prop :=
  decodePhase 3#4 = .ok .len ∧
  ∀ s : State, ∃ t, exec .len s = .next t ∧
    t.BLK[14].toNat = 8 * s.N.toNat / 2 ^ 32 ∧ t.BLK[15].toNat = 8 * s.N.toNat % 2 ^ 32 ∧
    (∀ j : Nat, ∀ h : j < 14, t.BLK[j] = s.BLK[j]) ∧
    t = { s with BLK := t.BLK, BP := 0, RET := .ENC, PHASE := .LOAD }

/-- 41_preprocessor.md R142, 20_memory.md R61: four pushes from a word boundary write the big-endian word of the four bytes,
whatever `PK` held, and no other element. -/
def Obligations.FourPushesAssembleABigEndianWord : Prop :=
  ∀ (s : State) (p0 p1 p2 p3 : Byte), s.BP.toNat % 4 = 0 →
    ∀ t, t = push p3 (push p2 (push p1 (push p0 s))) →
    (∀ j : Nat, ∀ h : j < 16, j ≠ s.BP.toNat / 4 → t.BLK[j] = s.BLK[j]) ∧
    (∀ h : s.BP.toNat / 4 < 16,
      t.BLK[s.BP.toNat / 4].toNat = p0.toNat * 2 ^ 24 + p1.toNat * 2 ^ 16 + p2.toNat * 2 ^ 8 + p3.toNat) ∧
    t.BP.toNat = (s.BP.toNat + 4) % 64

/-! ## CMP -/

/-- 42_compression.md R172. -/
def Obligations.LoadCopiesTheBlock : Prop :=
  decodePhase 4#4 = .ok .load ∧
  ∀ s : State, ∃ t, exec .load s = .next t ∧
    (∀ j : Nat, ∀ h : j < 16, t.W[j] = s.BLK[j]) ∧
    (∀ j : Nat, ∀ h : j < 64, 16 ≤ j → t.W[j] = s.W[j]) ∧
    t = { s with W := t.W, T := 16, PHASE := .SCHED }

/-- 42_compression.md R174, for `T` in the range 16..63 the rule gives. -/
def Obligations.SchedComputesOneWord : Prop :=
  decodePhase 5#4 = .ok .sched ∧
  ∀ (s : State) (n : Nat) (h : n < 64), 16 ≤ n → s.T = BitVec.ofNat 6 n →
    ∃ t, exec .sched s = .next t ∧
      t.W[n] = sigma1 s.W[n - 2] + s.W[n - 7] + sigma0 s.W[n - 15] + s.W[n - 16] ∧
      (∀ j : Nat, ∀ hj : j < 64, j ≠ n → t.W[j] = s.W[j]) ∧
      if n = 63 then t = { s with W := t.W, T := 0, PHASE := .INIT }
      else t = { s with W := t.W, T := BitVec.ofNat 6 (n + 1) }

/-- 42_compression.md R175. -/
def Obligations.InitCopiesTheHashState : Prop :=
  decodePhase 6#4 = .ok .init ∧
  ∀ s : State, exec .init s = .next { s with V := s.H, T := 0, PHASE := .ROUND }

/-- 42_compression.md R177 with the round function of R176, lane by lane. -/
def Obligations.RoundRotatesTheWorkingVariables : Prop :=
  decodePhase 7#4 = .ok .round ∧
  ∀ (s : State) (n : Nat) (h : n < 64), s.T = BitVec.ofNat 6 n →
    ∃ t, exec .round s = .next t ∧
      (∀ t1 t2 : Word, t1 = s.V[7] + bigS1 s.V[4] + ch s.V[4] s.V[5] s.V[6] + romK[n] + s.W[n] →
        t2 = bigS0 s.V[0] + maj s.V[0] s.V[1] s.V[2] →
        t.V[0] = t1 + t2 ∧ t.V[1] = s.V[0] ∧ t.V[2] = s.V[1] ∧ t.V[3] = s.V[2] ∧
        t.V[4] = s.V[3] + t1 ∧ t.V[5] = s.V[4] ∧ t.V[6] = s.V[5] ∧ t.V[7] = s.V[6]) ∧
      if n = 63 then t = { s with V := t.V, T := 0, PHASE := .ACCUM }
      else t = { s with V := t.V, T := BitVec.ofNat 6 (n + 1) }

/-- 42_compression.md R178: eight independent lane sums modulo 2^32, `PHASE <- RET`, and the response of the CHAR that caused
the dispatch when `RET = REST`. -/
def Obligations.AccumAddsTheLanes : Prop :=
  decodePhase 8#4 = .ok .accum ∧
  ∀ s : State, ∃ t, exec .accum s = .next t ∧
    (∀ j : Nat, ∀ h : j < 8, t.H[j].toNat = (s.H[j].toNat + s.V[j].toNat) % 2 ^ 32) ∧
    if s.RET = .REST then t = { s with H := t.H, PHASE := s.RET, OUT := s.OUT ++ [0x00000000#32] }
    else t = { s with H := t.H, PHASE := s.RET }

/-- 42_compression.md R182 to R185 by the bit definition of ROTR (00_scope.md R8) and SHR (R9): each bit of the result is the
exclusive or of the named bits of the operand. -/
def Obligations.RotationSumsBitByBit : Prop :=
  ∀ (x : Word) (j : Nat), j < 32 →
    (sigma0 x).getLsbD j =
      (x.getLsbD ((j + 7) % 32) ^^ x.getLsbD ((j + 18) % 32) ^^ (decide (j + 3 < 32) && x.getLsbD (j + 3))) ∧
    (sigma1 x).getLsbD j =
      (x.getLsbD ((j + 17) % 32) ^^ x.getLsbD ((j + 19) % 32) ^^ (decide (j + 10 < 32) && x.getLsbD (j + 10))) ∧
    (bigS0 x).getLsbD j = (x.getLsbD ((j + 2) % 32) ^^ x.getLsbD ((j + 13) % 32) ^^ x.getLsbD ((j + 22) % 32)) ∧
    (bigS1 x).getLsbD j = (x.getLsbD ((j + 6) % 32) ^^ x.getLsbD ((j + 11) % 32) ^^ x.getLsbD ((j + 25) % 32))

/-- 42_compression.md R186 and R187: bit by bit, `ch` chooses the bit of `f` or of `g` by the bit of `e`, and `maj` is the
majority of the three bits. -/
def Obligations.ChoiceAndMajorityBitByBit : Prop :=
  ∀ (a b c : Word) (j : Nat), j < 32 →
    (ch a b c).getLsbD j = (if a.getLsbD j = true then b.getLsbD j else c.getLsbD j) ∧
    ((maj a b c).getLsbD j = true ↔
      2 ≤ (a.getLsbD j).toNat + (b.getLsbD j).toNat + (c.getLsbD j).toNat)

/-- 42_compression.md R190: the equivalent forms, each an identity on all 32-bit words. -/
def Obligations.EquivalentFormsOfTheRoundFunctions : Prop :=
  (∀ e f g : Word, ch e f g = g ^^^ (e &&& (f ^^^ g)) ∧ ch e f g = (e &&& f) ||| (~~~e &&& g) ∧
    ch e f g = (e &&& f) + (~~~e &&& g) ∧ (e &&& f) &&& (~~~e &&& g) = 0#32) ∧
  (∀ a b c : Word, maj a b c = (a &&& b) ||| (c &&& (a ||| b))) ∧
  (∀ (x : Word) (n m : Nat), 0 < m → m < n → n < 32 → rotr x n = rotr (rotr x m) (n - m))

/-- 40_constants.md R121: `HINIT[i]` and `K[i]` are the low 32 bits of the integer square and cube roots of `p·2^64` and
`p·2^96` for the i-th prime `p`, counted from 0. -/
def Obligations.RomsHoldTheRootsOfThePrimes : Prop :=
  (∀ j : Nat, ∀ h : j < 8, ∃ r : Nat, r ^ 2 ≤ Nat.nth Nat.Prime j * 2 ^ 64 ∧ Nat.nth Nat.Prime j * 2 ^ 64 < (r + 1) ^ 2 ∧
    romHINIT[j].toNat = r % 2 ^ 32) ∧
  (∀ j : Nat, ∀ h : j < 64, ∃ r : Nat, r ^ 3 ≤ Nat.nth Nat.Prime j * 2 ^ 96 ∧ Nat.nth Nat.Prime j * 2 ^ 96 < (r + 1) ^ 3 ∧
    romK[j].toNat = r % 2 ^ 32)

/-- 42_compression.md R173: the schedule is the block's sixteen words and then the recurrence. -/
def Obligations.ScheduleSatisfiesTheRecurrence : Prop :=
  ∀ b : Block,
    (∀ j : Nat, ∀ h : j < 16, (schedule b)[j] = b[j]) ∧
    ∀ n : Nat, ∀ h : n < 64, 16 ≤ n →
      (schedule b)[n] = sigma1 (schedule b)[n - 2] + (schedule b)[n - 7] + sigma0 (schedule b)[n - 15] +
        (schedule b)[n - 16]

/-! ## ENC -/

/-- 43_encoder.md R214, one step: the eight characters of `H[T]` by value (R211, R212), every other element kept, and on the
eighth step the flags, REST and the response of FINAL. -/
def Obligations.EncWritesEightCharacters : Prop :=
  decodePhase 9#4 = .ok .enc ∧
  ∀ (s : State) (n : Nat) (hn : n < 8), s.T = BitVec.ofNat 6 n →
    ∃ t, exec .enc s = .next t ∧
      (∀ j : Nat, ∀ hj : j < 8, ∀ v : Nat, v = s.H[n].toNat / 16 ^ (7 - j) % 16 →
        t.DIGEST[8 * n + j].toNat = if v ≤ 9 then 0x30 + v else 0x57 + v) ∧
      (∀ k : Nat, ∀ hk : k < 64, k / 8 ≠ n → t.DIGEST[k] = s.DIGEST[k]) ∧
      if n = 7 then t = { s with
        DIGEST := t.DIGEST, T := 0, OPEN := false, DONE := true, PHASE := .REST, OUT := s.OUT ++ [0x00000000#32] }
      else t = { s with DIGEST := t.DIGEST, T := BitVec.ofNat 6 (n + 1) }

/-- The model's choice (log 7): outside the index ranges of 20_memory.md R74, which "never occur", SCHED and ENC stop with the
fault `indexOutOfRange`; inside them they do not. -/
def Obligations.IndexFaultExactlyOutsideTheRanges : Prop :=
  ∀ s : State,
    (exec .sched s = .fault .indexOutOfRange ↔ s.T.toNat < 16) ∧
    (exec .enc s = .fault .indexOutOfRange ↔ 8 ≤ s.T.toNat)

/-! ## Padding -/

/-- 41_preprocessor.md R149, R150: the padded message has `16·(floor((n + 8)/64) + 1)` words, and they are, byte by byte and
big-endian (20_memory.md R61, R62), the message, one byte 0x80, `(55 - n) mod 64` bytes 0x00 and the eight bytes of
`8·n`. -/
def Obligations.PadAppendsMarkerZerosAndLength : Prop :=
  ∀ m : List Byte, m.length < 2 ^ 61 →
    (pad m).length = 16 * ((m.length + 8) / 64 + 1) ∧
    ∃ z : Nat, z < 64 ∧ (m.length + 1 + z) % 64 = 56 ∧
      (pad m).flatMap (fun w => [byteOf w 0, byteOf w 1, byteOf w 2, byteOf w 3]) =
        m ++ [0x80#8] ++ List.replicate z 0x00#8 ++
          (List.range 8).map fun k => BitVec.ofNat 8 (8 * m.length / 2 ^ (56 - 8 * k))

/-! ## Whole-machine rules -/

/-- The invariant holds in the reset state (10_state.md R43, R30, R34, R35). -/
def Obligations.ResetMeetsTheInvariant : Prop := State.reset.Inv

/-- Every step keeps the invariant: at most one flag (10_state.md R30), `T` in its phase's range (R34), `RET` one of three
phases (R35), `BP` as 41_preprocessor.md R143 and R147 and 10_state.md R40 have it, and the digest that of the Hash State
whenever `DONE = 1` (43_encoder.md R214, R215). -/
def Obligations.EveryStepKeepsTheInvariant : Prop :=
  ∀ s t : State, s.Inv → step s = .next t → t.Inv

/-- 60_exceptions.md R285: nothing faults, traps, hangs: a state of the invariant always has a next state. -/
def Obligations.NoStepStopsTheMachine : Prop :=
  ∀ s : State, s.Inv → ∃ t, step s = .next t

/-- 10_state.md R31: every write of the flags, with the values the flags have after it. -/
def Obligations.FlagsAreWrittenOnlyAsListed : Prop :=
  ∀ s t : State, s.Inv → step s = .next t →
    (t.OPEN = s.OPEN ∧ t.DONE = s.DONE ∧ t.ERR = s.ERR) ∨
    (nextStep s = .reset ∧ t.OPEN = false ∧ t.DONE = false ∧ t.ERR = false) ∨
    (nextStep s = .run .start ∧ t.OPEN = true ∧ t.DONE = false ∧ t.ERR = false) ∨
    (∃ c : Elem, nextStep s = .run (.char c) ∧ s.OPEN = true ∧ 255 < c.toNat ∧
      t.OPEN = false ∧ t.DONE = false ∧ t.ERR = true) ∨
    (nextStep s = .run .enc ∧ s.T = 7 ∧ t.OPEN = false ∧ t.DONE = true ∧ t.ERR = false) ∨
    (nextStep s = .run .clear ∧ t.OPEN = false ∧ t.DONE = false ∧ t.ERR = false)

/-- A register is changed only by the instructions listed as its writers, in every state: 20_memory.md R60 for the register
files, 10_state.md R26 to R28 and R35 and 41_preprocessor.md R142 for `PK`, `BP`, `N`, `DIGEST` and `RET`, and for `T` the
instructions whose own rules write it (42_compression.md R172, R174, R175, R177, 43_encoder.md R214). The clause on `T` is
the model's reading (log 14, DEDUCED): 10_state.md R36 gives the others "T after: 0", where their rules write no `T`. The
clauses on `IN` and `free` are about the model's own fields (logs 3 and 2, DESIGN CHOICE). -/
def Obligations.RegistersAreWrittenOnlyByTheirOwners : Prop :=
  ∀ (i : Instr) (s t : State), exec i s = .next t →
    (t.H = s.H ∨ i = .start ∨ i = .accum) ∧
    (t.V = s.V ∨ i = .init ∨ i = .round) ∧
    (t.W = s.W ∨ i = .load ∨ i = .sched) ∧
    (t.BLK = s.BLK ∨ (∃ c, i = .char c) ∨ i = .pad80 ∨ i = .pad00 ∨ i = .len) ∧
    (t.PK = s.PK ∨ (∃ c, i = .char c) ∨ i = .pad80 ∨ i = .pad00) ∧
    (t.BP = s.BP ∨ (∃ c, i = .char c) ∨ i = .pad80 ∨ i = .pad00 ∨ i = .len ∨ i = .start ∨ i = .clear) ∧
    (t.N = s.N ∨ (∃ c, i = .char c) ∨ i = .start ∨ i = .clear) ∧
    (t.DIGEST = s.DIGEST ∨ i = .enc) ∧
    (t.T = s.T ∨ i = .load ∨ i = .sched ∨ i = .init ∨ i = .round ∨ i = .enc) ∧
    (t.RET = s.RET ∨ (∃ c, i = .char c) ∨ i = .pad80 ∨ i = .pad00 ∨ i = .len) ∧
    t.IN = s.IN ∧ t.free = s.free

/-- 10_state.md R38 and 30_encoding.md R95, R96: a step appends at most one response; its code is 0 to 3, its `DATA` is zero
unless the code is OK; and in the states of the invariant it is appended exactly by a step that runs something and
ends at REST. -/
def Obligations.OneResponseWhenTheCommandCompletes : Prop :=
  ∀ s t : State, step s = .next t →
    (t.OUT = s.OUT ∨ ∃ r : Word, t.OUT = s.OUT ++ [r] ∧ r.toNat / 2 ^ 28 ≤ 3 ∧
      (r.toNat / 2 ^ 28 ≠ 0 → r.toNat % 2 ^ 28 = 0)) ∧
    (s.Inv → (t.OUT ≠ s.OUT ↔ t.PHASE = .REST ∧ nextStep s ≠ .rest ∧ nextStep s ≠ .reset))

/-- 10_state.md R36: the transition table of the sequencer for every phase other than REST. -/
def Obligations.SequencerFollowsTheTable : Prop :=
  ∀ s : State, s.Inv → s.PHASE ≠ .REST → (∀ rest, s.IN ≠ .reset :: rest) →
    ∃ t, step s = .next t ∧ (t.PHASE, t.T, t.RET) = sequencerTable s

/-- 60_exceptions.md R276, R278: the ERR state is sticky: every command but START and CLEAR leaves every register as it is and
appends one response. -/
def Obligations.FailureIsStickyUntilStartOrClear : Prop :=
  ∀ (s : State) (i : Instr), s.msgState = some .ERR → i.onPort = true → i ≠ .start → i ≠ .clear →
    ∃ r : Word, exec i s = .next { s with OUT := s.OUT ++ [r] }

/-- 70_reset_and_hazards.md R312: FINAL, RDCHR, RDSTAT, NOP and CHAR leave the digest readable and unchanged in state
DONE; START and CLEAR keep its characters but make it unreadable. -/
def Obligations.DigestStaysReadableUntilStartOrClear : Prop :=
  ∀ (s : State) (i : Instr), s.msgState = some .DONE → i.onPort = true →
    ∃ t, exec i s = .next t ∧ t.DIGEST = s.DIGEST ∧ (t.DONE = true ↔ i ≠ .start ∧ i ≠ .clear)

/-! ## Dispatch, commands, the hash contract -/

/-- 42_compression.md R171, R180: one block dispatch is 115 micro-steps and computes `H <- compress(H, BLK)`; it ends with
`PHASE <- RET`, writes nothing but `W`, `V`, `H`, `T` and `PHASE`, and leaves waiting command words waiting (in `IN`, log 3; for idle steps
see `StepRunsTheMicroOperationOfThePhase`). -/
def Obligations.BlockDispatchCompressesTheBlock : Prop :=
  ∀ (s : State) (ws : List Word), s.PHASE = .LOAD → s.IN = ws.map .command →
    Sys2Proof.core.run 115 s = .next { s with
      H := compress s.H s.BLK, V := roundsAfter (schedule s.BLK) s.H 64, W := schedule s.BLK, T := 0, PHASE := s.RET,
      OUT := if s.RET = .REST then s.OUT ++ [0x00000000#32] else s.OUT }

/-- 43_encoder.md R214: after the eight encoder steps `DIGEST = encode(H)`, the message is DONE and FINAL is answered. -/
def Obligations.EightEncoderStepsEncodeTheHashState : Prop :=
  ∀ (s : State) (ws : List Word), s.PHASE = .ENC → s.T = 0 → s.IN = ws.map .command →
    Sys2Proof.core.run 8 s = .next { s with
      DIGEST := encodeDigest s.H, OPEN := false, DONE := true, PHASE := .REST, OUT := s.OUT ++ [0x00000000#32] }

/-- Derived from 44_commands.md R256 with R230, R245, R247 and R254, 10_state.md R37 and R38, and the counts of
70_reset_and_hazards.md R321, which the spec marks as derived (a step is one micro-step, log 10): from a state of the
invariant at REST, every offered word is accepted, runs for exactly the micro-steps of R321 and is back at REST with
exactly one response of the code and, for RDCHR and RDSTAT, the data that the message state gives it, and the message
state of the table; a word that spells no command is answered ILLEGAL. Words offered after it still wait (in `IN`, log
3). -/
def Obligations.EveryCommandCompletesWithOneResponse : Prop :=
  ∀ (s : State) (w : Word) (ws : List Word) (m : MsgState), s.Inv → s.PHASE = .REST → s.msgState = some m →
    s.IN = .command w :: ws.map .command →
    ∃ t, Sys2Proof.core.run (1 + microSteps s w) s = .next t ∧ t.PHASE = .REST ∧ t.IN = ws.map .command ∧
      match decodeWord w with
      | .error _ => t.msgState = some m ∧ t.OUT = s.OUT ++ [0x30000000#32]
      | .ok i => t.msgState = some (m.after i) ∧
        t.OUT = s.OUT ++ [responseWord (m.answer i) (s.answerData m i)]

/-- 70_reset_and_hazards.md R321, 10_state.md R37, R39: after the acceptance of a word the machine is busy until the last of
its micro-steps has run. That it is ready then is `EveryCommandCompletesWithOneResponse`. -/
def Obligations.CommandIsBusyUntilItsLastMicroStep : Prop :=
  ∀ (s : State) (w : Word) (ws : List Word), s.Inv → s.PHASE = .REST → s.IN = .command w :: ws.map .command →
    ∀ (k : Nat) (t : State), 1 ≤ k → k < 1 + microSteps s w → Sys2Proof.core.run k s = .next t →
      t.cmdReady = false

/-- 10_state.md R40: START leaves the hidden state of the empty message, and every accepted element extends the message it
tracks: `BP = N mod 64`, `H` the chaining value of the whole blocks, `BLK` and `PK` the bytes since, big-endian. -/
def Obligations.HiddenStateTracksTheMessage : Prop :=
  (∀ s : State, s.PHASE = .REST → ∃ t, exec .start s = .next t ∧ t.Tracks []) ∧
  ∀ (m : List Byte) (s : State) (c : Elem) (ws : List Word), s.Tracks m → c.toNat ≤ 255 →
    s.IN = .command (0x20000000#32 ||| c.setWidth 32) :: ws.map .command →
    ∃ (k : Nat) (t : State), k ≤ 116 ∧ Sys2Proof.core.run k s = .next t ∧ t.Tracks (m ++ [BitVec.ofNat 8 c.toNat]) ∧
      t.IN = ws.map .command ∧ t.OUT = s.OUT ++ [0x00000000#32]

/-- 44_commands.md R261 (a): from any state at REST, `MSGX` of a message of fewer than 2^61 bytes and then `RDDIG` are
answered OK throughout, end in DONE, and the 64 characters read are `hash(s)`. -/
def Obligations.CommandsRealiseHashOfAValidMessage : Prop :=
  ∀ (s : State) (m : List Elem), s.PHASE = .REST → m.length < 2 ^ 61 → (∀ c ∈ m, c.toNat ≤ 255) →
    s.IN = (portWords (Pseudo.msgx m ++ Pseudo.rddig)).map .command →
    ∃ (k : Nat) (t : State) (d : Digest), Sys2Proof.core.run k s = .next t ∧ hashOf m = .digest d ∧
      t.IN = [] ∧ t.PHASE = .REST ∧ t.msgState = some .DONE ∧
      t.OUT = s.OUT ++ List.replicate (m.length + 2) 0x00000000#32 ++ d.toList.map fun b => b.setWidth 32

/-- 44_commands.md R261 (b): with a first element above 255, START and the elements before it are answered OK, it, every later
element and FINAL are answered INVALID_INPUT, the end state is ERR and every RDCHR is answered SEQ: no digest. -/
def Obligations.CommandsRejectAnInvalidMessage : Prop :=
  ∀ (s : State) (before after : List Elem) (c : Elem), s.PHASE = .REST → (∀ x ∈ before, x.toNat ≤ 255) →
    255 < c.toNat →
    s.IN = (portWords (Pseudo.msgx (before ++ c :: after) ++ Pseudo.rddig)).map .command →
    ∃ (k : Nat) (t : State), Sys2Proof.core.run k s = .next t ∧ hashOf (before ++ c :: after) = .invalidInput ∧
      t.IN = [] ∧ t.PHASE = .REST ∧ t.msgState = some .ERR ∧
      t.OUT = s.OUT ++ List.replicate (1 + before.length) 0x00000000#32 ++
        List.replicate (after.length + 2) 0x10000000#32 ++ List.replicate 64 0x20000000#32

/-- 10_state.md R42, 93_implementation_defined.md U1: what the data registers hold after reset is never observable: two
machines in state IDLE at REST that agree on everything but `H`, `V`, `W`, `BLK`, `PK` and `DIGEST` show the host the same
responses and status outputs for ever, under every host input, and neither stops. -/
def Obligations.UnspecifiedContentsAreNeverObservable : Prop :=
  ∀ s u : State, s.SameControl u → s.PHASE = .REST → s.msgState = some .IDLE →
    ∀ k : Nat, visible (Sys2Proof.core.run k s) = visible (Sys2Proof.core.run k u) ∧
      visible (Sys2Proof.core.run k s) ≠ none
end

