-- ==== Sys2Proof/Laws/Bits.lean ====
section
/-! SUPPORT. Laws/Bits.lean: the arithmetic value of every bit field of Machine/Operands.lean and Decode.lean. -/

namespace Sys2Proof.Machine

/-! ### The packer and the byte pointer -/

theorem packByte_toNat (pk : Word) (b : Byte) :
    (packByte pk b).toNat = (256 * pk.toNat + b.toNat) % 2 ^ 32 := by
  have hb := b.isLt
  simp only [packByte, BitVec.toNat_append, BitVec.extractLsb'_toNat, Nat.shiftRight_zero]
  rw [Nat.shiftLeft_eq, Nat.mul_comm, ← Nat.two_pow_add_eq_or_of_lt hb]
  omega

theorem wordIndex_toNat (bp : BitVec 6) : (wordIndex bp).toNat = bp.toNat / 4 := by
  have h := bp.isLt
  simp only [wordIndex, BitVec.extractLsb'_toNat, Nat.shiftRight_eq_div_pow]
  omega

theorem byteIndex_toNat (bp : BitVec 6) : (byteIndex bp).toNat = bp.toNat % 4 := by
  simp [byteIndex, BitVec.extractLsb'_toNat]

theorem byteIndex_eq_three (bp : BitVec 6) : byteIndex bp = 3 ↔ bp.toNat % 4 = 3 := by
  rw [← byteIndex_toNat, ← BitVec.toNat_inj]; rfl

theorem elemByte_eq (c : Elem) : elemByte c = BitVec.ofNat 8 c.toNat := by
  apply BitVec.eq_of_toNat_eq
  simp [elemByte, BitVec.extractLsb'_toNat]

theorem elemByte_toNat (c : Elem) (h : c.toNat ≤ 255) : (elemByte c).toNat = c.toNat := by
  simp [elemByte, BitVec.extractLsb'_toNat]; omega

/-! ### Words, bytes and digits -/

theorem packWord_toNat (p0 p1 p2 p3 : Byte) :
    (packWord p0 p1 p2 p3).toNat = p0.toNat * 2 ^ 24 + p1.toNat * 2 ^ 16 + p2.toNat * 2 ^ 8 + p3.toNat := by
  have h0 := p0.isLt
  have h1 := p1.isLt
  have h2 := p2.isLt
  have h3 := p3.isLt
  simp only [packWord, BitVec.toNat_append, Nat.shiftLeft_eq]
  rw [Nat.mul_comm p0.toNat, ← Nat.two_pow_add_eq_or_of_lt (by omega),
    Nat.mul_comm _ (2 ^ 8), ← Nat.two_pow_add_eq_or_of_lt (by omega),
    Nat.mul_comm _ (2 ^ 8), ← Nat.two_pow_add_eq_or_of_lt (by omega)]
  omega

theorem byteOf_toNat (w : Word) (k : Nat) : (byteOf w k).toNat = w.toNat / 2 ^ (24 - 8 * k) % 256 := by
  simp [byteOf, BitVec.extractLsb'_toNat, Nat.shiftRight_eq_div_pow]

theorem nibbleOf_toNat (w : Word) (j : Nat) : (nibbleOf w j).toNat = w.toNat / 2 ^ (28 - 4 * j) % 16 := by
  simp [nibbleOf, BitVec.extractLsb'_toNat, Nat.shiftRight_eq_div_pow]

theorem hexchar_toNat (v : BitVec 4) :
    (hexchar v).toNat = if v.toNat ≤ 9 then 0x30 + v.toNat else 0x57 + v.toNat := by
  revert v; decide

/-- The four bytes of a packed word, in arrival order (20_memory.md R61). -/
theorem byteOf_packWord (p0 p1 p2 p3 : Byte) :
    byteOf (packWord p0 p1 p2 p3) 0 = p0 ∧ byteOf (packWord p0 p1 p2 p3) 1 = p1 ∧
    byteOf (packWord p0 p1 p2 p3) 2 = p2 ∧ byteOf (packWord p0 p1 p2 p3) 3 = p3 := by
  have h0 := p0.isLt
  have h1 := p1.isLt
  have h2 := p2.isLt
  have h3 := p3.isLt
  refine ⟨?_, ?_, ?_, ?_⟩ <;> apply BitVec.eq_of_toNat_eq <;> rw [byteOf_toNat, packWord_toNat] <;> omega

/-- The byte just pushed is the last one of the packer. -/
theorem byteOf_packByte_last (pk : Word) (b : Byte) : byteOf (packByte pk b) 3 = b := by
  have := b.isLt
  apply BitVec.eq_of_toNat_eq
  rw [byteOf_toNat, packByte_toNat]
  omega

/-- The others move up one place. -/
theorem byteOf_packByte_shifted (pk : Word) (b : Byte) (k : Nat) (h : k < 3) :
    byteOf (packByte pk b) k = byteOf pk (k + 1) := by
  have := b.isLt
  apply BitVec.eq_of_toNat_eq
  rw [byteOf_toNat, byteOf_toNat, packByte_toNat]
  rcases (by omega : k = 0 ∨ k = 1 ∨ k = 2) with h | h | h <;> subst h <;> omega

/-- A word is determined by its four bytes. -/
theorem eq_of_bytes (a b : Word) (h : ∀ k, k < 4 → byteOf a k = byteOf b k) : a = b := by
  apply BitVec.eq_of_toNat_eq
  have h0 := congrArg BitVec.toNat (h 0 (by omega))
  have h1 := congrArg BitVec.toNat (h 1 (by omega))
  have h2 := congrArg BitVec.toNat (h 2 (by omega))
  have h3 := congrArg BitVec.toNat (h 3 (by omega))
  rw [byteOf_toNat, byteOf_toNat] at h0 h1 h2 h3
  have := a.isLt
  have := b.isLt
  omega

/-! ### The length field -/

theorem lengthValue_toNat (n : BitVec 61) : (lengthValue n).toNat = 8 * n.toNat := by
  have h := n.isLt
  simp only [lengthValue, BitVec.toNat_shiftLeft, BitVec.toNat_setWidth, Nat.shiftLeft_eq]
  omega

theorem lengthHigh_toNat (n : BitVec 61) : (lengthHigh n).toNat = 8 * n.toNat / 2 ^ 32 := by
  have h := n.isLt
  simp only [lengthHigh, BitVec.extractLsb'_toNat, lengthValue_toNat, Nat.shiftRight_eq_div_pow]
  omega

theorem lengthLow_toNat (n : BitVec 61) : (lengthLow n).toNat = 8 * n.toNat % 2 ^ 32 := by
  simp only [lengthLow, BitVec.extractLsb'_toNat, lengthValue_toNat, Nat.shiftRight_zero]

/-! ### The command format -/

theorem opOf_toNat (w : Word) : (opOf w).toNat = w.toNat / 2 ^ 28 := by
  have h := w.isLt
  simp only [opOf, BitVec.extractLsb'_toNat, Nat.shiftRight_eq_div_pow]
  omega

theorem rsvOf_toNat (w : Word) : (rsvOf w).toNat = w.toNat / 2 ^ 24 % 16 := by
  simp [rsvOf, BitVec.extractLsb'_toNat, Nat.shiftRight_eq_div_pow]

theorem argOf_toNat (w : Word) : (argOf w).toNat = w.toNat % 2 ^ 24 := by
  simp [argOf, BitVec.extractLsb'_toNat]

theorem indexOf_toNat (a : BitVec 24) : (indexOf a).toNat = a.toNat % 2 ^ 6 := by
  simp [indexOf, BitVec.extractLsb'_toNat]

theorem indexHighOf_toNat (a : BitVec 24) : (indexHighOf a).toNat = a.toNat / 2 ^ 6 := by
  have h := a.isLt
  simp only [indexHighOf, BitVec.extractLsb'_toNat, Nat.shiftRight_eq_div_pow]
  omega

theorem formatC_toNat (op : BitVec 4) (arg : BitVec 24) :
    (formatC op arg).toNat = op.toNat * 2 ^ 28 + arg.toNat := by
  have h1 := op.isLt
  have h2 := arg.isLt
  simp only [formatC, BitVec.toNat_append, Nat.shiftLeft_eq]
  simp only [BitVec.toNat_ofNat, Nat.zero_mod, Nat.or_zero]
  rw [Nat.mul_comm _ (2 ^ 24), ← Nat.two_pow_add_eq_or_of_lt h2]
  omega

end Sys2Proof.Machine
end

