-- ==== Sys2Proof/Laws/Decode.lean ====
section
/-! SUPPORT. Laws/Decode.lean: the decoder as a case list on the arithmetic value of the word, and the masks of
30_encoding.md R92. -/

namespace Sys2Proof.Machine

/-- With `CHAR_W = 24` no bit of `ARG` lies above the element. -/
theorem decodeWord_eq (w : Word) : decodeWord w =
    if rsvOf w ≠ 0 then .error .rsvNonzero
    else if 7 ≤ opOf w then .error .opReserved
    else if takesNoOperand (opOf w) && argOf w != 0 then .error .argNonzero
    else if opOf w = 4 ∧ indexHighOf (argOf w) ≠ 0 then .error .indexTooHigh
    else .ok (commandOf (opOf w) (argOf w)) := by
  have h : argOf w >>> Config.charW = 0 := by
    apply BitVec.eq_of_toNat_eq
    have := (argOf w).isLt
    simp only [BitVec.toNat_ushiftRight, Config.charW, Nat.shiftRight_eq_div_pow]
    show (argOf w).toNat / 2 ^ 24 = 0
    omega
  simp only [decodeWord, decodeWordFor, h, ne_eq, not_true_eq_false, and_false, if_false]

/-- A word from its fields. -/
theorem word_eq_fields (w : Word) :
    w.toNat = (opOf w).toNat * 2 ^ 28 + (rsvOf w).toNat * 2 ^ 24 + (argOf w).toNat := by
  rw [opOf_toNat, rsvOf_toNat, argOf_toNat]; omega

theorem rsvOf_formatC (op : BitVec 4) (arg : BitVec 24) : rsvOf (formatC op arg) = 0 := by
  apply BitVec.eq_of_toNat_eq
  have := arg.isLt
  rw [rsvOf_toNat, formatC_toNat]
  show _ = 0
  omega

theorem opOf_formatC (op : BitVec 4) (arg : BitVec 24) : opOf (formatC op arg) = op := by
  apply BitVec.eq_of_toNat_eq
  have := arg.isLt
  rw [opOf_toNat, formatC_toNat]; omega

theorem argOf_formatC (op : BitVec 4) (arg : BitVec 24) : argOf (formatC op arg) = arg := by
  apply BitVec.eq_of_toNat_eq
  have := arg.isLt
  rw [argOf_toNat, formatC_toNat]; omega

/-- A word whose reserved field is zero is the format C word of its opcode and operand. -/
theorem formatC_fields (w : Word) (h : rsvOf w = 0) : formatC (opOf w) (argOf w) = w := by
  apply BitVec.eq_of_toNat_eq
  have := word_eq_fields w
  rw [h] at this
  rw [formatC_toNat]
  simpa using this.symm

/-- The mask of CHAR keeps `OP` and `RSV`. -/
theorem and_charMask (w : Word) : w &&& 0xFF000000#32 = w.extractLsb' 24 8 ++ 0#24 := by
  apply BitVec.eq_of_getLsbD_eq
  intro j hj
  rw [BitVec.getLsbD_and, BitVec.getLsbD_append, BitVec.getLsbD_extractLsb']
  interval_cases j <;> simp

/-- The mask of RDCHR keeps everything but the index. -/
theorem and_rdchrMask (w : Word) : w &&& 0xFFFFFFC0#32 = w.extractLsb' 6 26 ++ 0#6 := by
  apply BitVec.eq_of_getLsbD_eq
  intro j hj
  rw [BitVec.getLsbD_and, BitVec.getLsbD_append, BitVec.getLsbD_extractLsb']
  interval_cases j <;> simp

theorem charMask_iff (w : Word) : w &&& 0xFF000000#32 = 0x20000000#32 ↔ w.toNat / 2 ^ 24 = 32 := by
  rw [and_charMask, ← BitVec.toNat_inj]
  have h := w.isLt
  simp only [BitVec.toNat_append, BitVec.extractLsb'_toNat, Nat.shiftLeft_eq, BitVec.toNat_ofNat, Nat.zero_mod,
    Nat.or_zero, Nat.shiftRight_eq_div_pow]
  omega

theorem rdchrMask_iff (w : Word) : w &&& 0xFFFFFFC0#32 = 0x40000000#32 ↔ w.toNat / 2 ^ 6 = 2 ^ 24 := by
  rw [and_rdchrMask, ← BitVec.toNat_inj]
  have h := w.isLt
  simp only [BitVec.toNat_append, BitVec.extractLsb'_toNat, Nat.shiftLeft_eq, BitVec.toNat_ofNat, Nat.zero_mod,
    Nat.or_zero, Nat.shiftRight_eq_div_pow]
  omega

/-- The decoder accepts exactly the words that one command encodes to. -/
theorem decodeWord_formatC (op : BitVec 4) (arg : BitVec 24) : decodeWord (formatC op arg) =
    if 7 ≤ op then .error .opReserved
    else if takesNoOperand op && arg != 0 then .error .argNonzero
    else if op = 4 ∧ indexHighOf arg ≠ 0 then .error .indexTooHigh
    else .ok (commandOf op arg) := by
  rw [decodeWord_eq, rsvOf_formatC, opOf_formatC, argOf_formatC]; simp

theorem decodeWord_ok (w : Word) (i : Instr) (h : decodeWord w = .ok i) :
    w = formatC (opOf w) (argOf w) ∧ opOf w < 7 ∧ (takesNoOperand (opOf w) = true → argOf w = 0) ∧
    (opOf w = 4 → indexHighOf (argOf w) = 0) ∧ i = commandOf (opOf w) (argOf w) := by
  rw [decodeWord_eq] at h
  split at h; · cases h
  split at h; · cases h
  split at h; · cases h
  split at h; · cases h
  rename_i h1 h2 h3 h4
  simp only [Except.ok.injEq] at h
  refine ⟨(formatC_fields w (by simpa using h1)).symm, by simpa using h2, ?_, ?_, h.symm⟩
  · intro ht; simpa [ht] using h3
  · intro ht; simpa [ht] using h4

/-- The opcodes below 7, one by one. -/
theorem op_cases (op : BitVec 4) (h : op < 7) :
    op = 0 ∨ op = 1 ∨ op = 2 ∨ op = 3 ∨ op = 4 ∨ op = 5 ∨ op = 6 := by
  revert op; decide

/-- An operand whose high bits are zero is its index. -/
theorem setWidth_indexOf (a : BitVec 24) (h : indexHighOf a = 0) : (indexOf a).setWidth 24 = a := by
  apply BitVec.eq_of_toNat_eq
  have h1 := indexHighOf_toNat a
  rw [h] at h1
  change 0 = _ at h1
  have := a.isLt
  rw [BitVec.toNat_setWidth, indexOf_toNat]
  omega

theorem indexOf_setWidth (n : BitVec 6) : indexOf (n.setWidth 24) = n := by
  apply BitVec.eq_of_toNat_eq
  have := n.isLt
  rw [indexOf_toNat, BitVec.toNat_setWidth]; omega

theorem indexHighOf_setWidth (n : BitVec 6) : indexHighOf (n.setWidth 24) = 0 := by
  apply BitVec.eq_of_toNat_eq
  have := n.isLt
  rw [indexHighOf_toNat, BitVec.toNat_setWidth]
  show _ = 0
  omega

/-- A phase code that selects a micro-operation is the code that micro-operation encodes to. -/
theorem decodePhase_ok (c : BitVec 4) (i : Instr) (h : decodePhase c = .ok i) : encode i = .phase c := by
  unfold decodePhase Phase.ofCode at h
  split_ifs at h <;> simp only [Phase.microOp, Except.ok.injEq, reduceCtorEq] at h <;> subst h <;>
    simp only [encode] <;> congr <;> exact (‹c = _›).symm

end Sys2Proof.Machine
end

