-- ==== Sys2Proof/Laws/State.lean ====
section
/-! SUPPORT. Laws/State.lean: one lemma per field per shared update, so that no later proof unfolds a record update.
The data registers after `takeReset` are free values and have no lemma here. -/

namespace Sys2Proof.Machine

/-! ### `respond` -/

@[simp] theorem respond_H (rc : Rc) (data : BitVec 28) (s : State) :
    (respond rc data s).H = s.H := rfl
@[simp] theorem respond_V (rc : Rc) (data : BitVec 28) (s : State) :
    (respond rc data s).V = s.V := rfl
@[simp] theorem respond_W (rc : Rc) (data : BitVec 28) (s : State) :
    (respond rc data s).W = s.W := rfl
@[simp] theorem respond_BLK (rc : Rc) (data : BitVec 28) (s : State) :
    (respond rc data s).BLK = s.BLK := rfl
@[simp] theorem respond_PK (rc : Rc) (data : BitVec 28) (s : State) :
    (respond rc data s).PK = s.PK := rfl
@[simp] theorem respond_BP (rc : Rc) (data : BitVec 28) (s : State) :
    (respond rc data s).BP = s.BP := rfl
@[simp] theorem respond_N (rc : Rc) (data : BitVec 28) (s : State) :
    (respond rc data s).N = s.N := rfl
@[simp] theorem respond_DIGEST (rc : Rc) (data : BitVec 28) (s : State) :
    (respond rc data s).DIGEST = s.DIGEST := rfl
@[simp] theorem respond_OPEN (rc : Rc) (data : BitVec 28) (s : State) :
    (respond rc data s).OPEN = s.OPEN := rfl
@[simp] theorem respond_DONE (rc : Rc) (data : BitVec 28) (s : State) :
    (respond rc data s).DONE = s.DONE := rfl
@[simp] theorem respond_ERR (rc : Rc) (data : BitVec 28) (s : State) :
    (respond rc data s).ERR = s.ERR := rfl
@[simp] theorem respond_PHASE (rc : Rc) (data : BitVec 28) (s : State) :
    (respond rc data s).PHASE = s.PHASE := rfl
@[simp] theorem respond_T (rc : Rc) (data : BitVec 28) (s : State) :
    (respond rc data s).T = s.T := rfl
@[simp] theorem respond_RET (rc : Rc) (data : BitVec 28) (s : State) :
    (respond rc data s).RET = s.RET := rfl
@[simp] theorem respond_OUT (rc : Rc) (data : BitVec 28) (s : State) :
    (respond rc data s).OUT = s.OUT ++ [responseWord rc data] := rfl
@[simp] theorem respond_IN (rc : Rc) (data : BitVec 28) (s : State) :
    (respond rc data s).IN = s.IN := rfl
@[simp] theorem respond_free (rc : Rc) (data : BitVec 28) (s : State) :
    (respond rc data s).free = s.free := rfl

/-! ### `flagsOpened` -/

@[simp] theorem flagsOpened_H (s : State) :
    (flagsOpened s).H = s.H := rfl
@[simp] theorem flagsOpened_V (s : State) :
    (flagsOpened s).V = s.V := rfl
@[simp] theorem flagsOpened_W (s : State) :
    (flagsOpened s).W = s.W := rfl
@[simp] theorem flagsOpened_BLK (s : State) :
    (flagsOpened s).BLK = s.BLK := rfl
@[simp] theorem flagsOpened_PK (s : State) :
    (flagsOpened s).PK = s.PK := rfl
@[simp] theorem flagsOpened_BP (s : State) :
    (flagsOpened s).BP = s.BP := rfl
@[simp] theorem flagsOpened_N (s : State) :
    (flagsOpened s).N = s.N := rfl
@[simp] theorem flagsOpened_DIGEST (s : State) :
    (flagsOpened s).DIGEST = s.DIGEST := rfl
@[simp] theorem flagsOpened_OPEN (s : State) :
    (flagsOpened s).OPEN = true := rfl
@[simp] theorem flagsOpened_DONE (s : State) :
    (flagsOpened s).DONE = false := rfl
@[simp] theorem flagsOpened_ERR (s : State) :
    (flagsOpened s).ERR = false := rfl
@[simp] theorem flagsOpened_PHASE (s : State) :
    (flagsOpened s).PHASE = s.PHASE := rfl
@[simp] theorem flagsOpened_T (s : State) :
    (flagsOpened s).T = s.T := rfl
@[simp] theorem flagsOpened_RET (s : State) :
    (flagsOpened s).RET = s.RET := rfl
@[simp] theorem flagsOpened_OUT (s : State) :
    (flagsOpened s).OUT = s.OUT := rfl
@[simp] theorem flagsOpened_IN (s : State) :
    (flagsOpened s).IN = s.IN := rfl
@[simp] theorem flagsOpened_free (s : State) :
    (flagsOpened s).free = s.free := rfl

/-! ### `flagsCleared` -/

@[simp] theorem flagsCleared_H (s : State) :
    (flagsCleared s).H = s.H := rfl
@[simp] theorem flagsCleared_V (s : State) :
    (flagsCleared s).V = s.V := rfl
@[simp] theorem flagsCleared_W (s : State) :
    (flagsCleared s).W = s.W := rfl
@[simp] theorem flagsCleared_BLK (s : State) :
    (flagsCleared s).BLK = s.BLK := rfl
@[simp] theorem flagsCleared_PK (s : State) :
    (flagsCleared s).PK = s.PK := rfl
@[simp] theorem flagsCleared_BP (s : State) :
    (flagsCleared s).BP = s.BP := rfl
@[simp] theorem flagsCleared_N (s : State) :
    (flagsCleared s).N = s.N := rfl
@[simp] theorem flagsCleared_DIGEST (s : State) :
    (flagsCleared s).DIGEST = s.DIGEST := rfl
@[simp] theorem flagsCleared_OPEN (s : State) :
    (flagsCleared s).OPEN = false := rfl
@[simp] theorem flagsCleared_DONE (s : State) :
    (flagsCleared s).DONE = false := rfl
@[simp] theorem flagsCleared_ERR (s : State) :
    (flagsCleared s).ERR = false := rfl
@[simp] theorem flagsCleared_PHASE (s : State) :
    (flagsCleared s).PHASE = s.PHASE := rfl
@[simp] theorem flagsCleared_T (s : State) :
    (flagsCleared s).T = s.T := rfl
@[simp] theorem flagsCleared_RET (s : State) :
    (flagsCleared s).RET = s.RET := rfl
@[simp] theorem flagsCleared_OUT (s : State) :
    (flagsCleared s).OUT = s.OUT := rfl
@[simp] theorem flagsCleared_IN (s : State) :
    (flagsCleared s).IN = s.IN := rfl
@[simp] theorem flagsCleared_free (s : State) :
    (flagsCleared s).free = s.free := rfl

/-! ### `flagsFailed` -/

@[simp] theorem flagsFailed_H (s : State) :
    (flagsFailed s).H = s.H := rfl
@[simp] theorem flagsFailed_V (s : State) :
    (flagsFailed s).V = s.V := rfl
@[simp] theorem flagsFailed_W (s : State) :
    (flagsFailed s).W = s.W := rfl
@[simp] theorem flagsFailed_BLK (s : State) :
    (flagsFailed s).BLK = s.BLK := rfl
@[simp] theorem flagsFailed_PK (s : State) :
    (flagsFailed s).PK = s.PK := rfl
@[simp] theorem flagsFailed_BP (s : State) :
    (flagsFailed s).BP = s.BP := rfl
@[simp] theorem flagsFailed_N (s : State) :
    (flagsFailed s).N = s.N := rfl
@[simp] theorem flagsFailed_DIGEST (s : State) :
    (flagsFailed s).DIGEST = s.DIGEST := rfl
@[simp] theorem flagsFailed_OPEN (s : State) :
    (flagsFailed s).OPEN = false := rfl
@[simp] theorem flagsFailed_DONE (s : State) :
    (flagsFailed s).DONE = s.DONE := rfl
@[simp] theorem flagsFailed_ERR (s : State) :
    (flagsFailed s).ERR = true := rfl
@[simp] theorem flagsFailed_PHASE (s : State) :
    (flagsFailed s).PHASE = s.PHASE := rfl
@[simp] theorem flagsFailed_T (s : State) :
    (flagsFailed s).T = s.T := rfl
@[simp] theorem flagsFailed_RET (s : State) :
    (flagsFailed s).RET = s.RET := rfl
@[simp] theorem flagsFailed_OUT (s : State) :
    (flagsFailed s).OUT = s.OUT := rfl
@[simp] theorem flagsFailed_IN (s : State) :
    (flagsFailed s).IN = s.IN := rfl
@[simp] theorem flagsFailed_free (s : State) :
    (flagsFailed s).free = s.free := rfl

/-! ### `flagsDone` -/

@[simp] theorem flagsDone_H (s : State) :
    (flagsDone s).H = s.H := rfl
@[simp] theorem flagsDone_V (s : State) :
    (flagsDone s).V = s.V := rfl
@[simp] theorem flagsDone_W (s : State) :
    (flagsDone s).W = s.W := rfl
@[simp] theorem flagsDone_BLK (s : State) :
    (flagsDone s).BLK = s.BLK := rfl
@[simp] theorem flagsDone_PK (s : State) :
    (flagsDone s).PK = s.PK := rfl
@[simp] theorem flagsDone_BP (s : State) :
    (flagsDone s).BP = s.BP := rfl
@[simp] theorem flagsDone_N (s : State) :
    (flagsDone s).N = s.N := rfl
@[simp] theorem flagsDone_DIGEST (s : State) :
    (flagsDone s).DIGEST = s.DIGEST := rfl
@[simp] theorem flagsDone_OPEN (s : State) :
    (flagsDone s).OPEN = false := rfl
@[simp] theorem flagsDone_DONE (s : State) :
    (flagsDone s).DONE = true := rfl
@[simp] theorem flagsDone_ERR (s : State) :
    (flagsDone s).ERR = s.ERR := rfl
@[simp] theorem flagsDone_PHASE (s : State) :
    (flagsDone s).PHASE = s.PHASE := rfl
@[simp] theorem flagsDone_T (s : State) :
    (flagsDone s).T = s.T := rfl
@[simp] theorem flagsDone_RET (s : State) :
    (flagsDone s).RET = s.RET := rfl
@[simp] theorem flagsDone_OUT (s : State) :
    (flagsDone s).OUT = s.OUT := rfl
@[simp] theorem flagsDone_IN (s : State) :
    (flagsDone s).IN = s.IN := rfl
@[simp] theorem flagsDone_free (s : State) :
    (flagsDone s).free = s.free := rfl

/-! ### `push` -/

@[simp] theorem push_H (b : Byte) (s : State) :
    (push b s).H = s.H := rfl
@[simp] theorem push_V (b : Byte) (s : State) :
    (push b s).V = s.V := rfl
@[simp] theorem push_W (b : Byte) (s : State) :
    (push b s).W = s.W := rfl
@[simp] theorem push_BLK (b : Byte) (s : State) :
    (push b s).BLK = if byteIndex s.BP = 3 then s.BLK.set (wordIndex s.BP).toNat (packByte s.PK b) (wordIndex_lt s.BP)
      else s.BLK := rfl
@[simp] theorem push_PK (b : Byte) (s : State) :
    (push b s).PK = packByte s.PK b := rfl
@[simp] theorem push_BP (b : Byte) (s : State) :
    (push b s).BP = s.BP + 1 := rfl
@[simp] theorem push_N (b : Byte) (s : State) :
    (push b s).N = s.N := rfl
@[simp] theorem push_DIGEST (b : Byte) (s : State) :
    (push b s).DIGEST = s.DIGEST := rfl
@[simp] theorem push_OPEN (b : Byte) (s : State) :
    (push b s).OPEN = s.OPEN := rfl
@[simp] theorem push_DONE (b : Byte) (s : State) :
    (push b s).DONE = s.DONE := rfl
@[simp] theorem push_ERR (b : Byte) (s : State) :
    (push b s).ERR = s.ERR := rfl
@[simp] theorem push_PHASE (b : Byte) (s : State) :
    (push b s).PHASE = s.PHASE := rfl
@[simp] theorem push_T (b : Byte) (s : State) :
    (push b s).T = s.T := rfl
@[simp] theorem push_RET (b : Byte) (s : State) :
    (push b s).RET = s.RET := rfl
@[simp] theorem push_OUT (b : Byte) (s : State) :
    (push b s).OUT = s.OUT := rfl
@[simp] theorem push_IN (b : Byte) (s : State) :
    (push b s).IN = s.IN := rfl
@[simp] theorem push_free (b : Byte) (s : State) :
    (push b s).free = s.free := rfl

/-! ### `acceptByte` -/

@[simp] theorem acceptByte_H (b : Byte) (s : State) :
    (acceptByte b s).H = s.H := rfl
@[simp] theorem acceptByte_V (b : Byte) (s : State) :
    (acceptByte b s).V = s.V := rfl
@[simp] theorem acceptByte_W (b : Byte) (s : State) :
    (acceptByte b s).W = s.W := rfl
@[simp] theorem acceptByte_BLK (b : Byte) (s : State) :
    (acceptByte b s).BLK = (push b s).BLK := rfl
@[simp] theorem acceptByte_PK (b : Byte) (s : State) :
    (acceptByte b s).PK = packByte s.PK b := rfl
@[simp] theorem acceptByte_BP (b : Byte) (s : State) :
    (acceptByte b s).BP = s.BP + 1 := rfl
@[simp] theorem acceptByte_N (b : Byte) (s : State) :
    (acceptByte b s).N = s.N + 1 := rfl
@[simp] theorem acceptByte_DIGEST (b : Byte) (s : State) :
    (acceptByte b s).DIGEST = s.DIGEST := rfl
@[simp] theorem acceptByte_OPEN (b : Byte) (s : State) :
    (acceptByte b s).OPEN = s.OPEN := rfl
@[simp] theorem acceptByte_DONE (b : Byte) (s : State) :
    (acceptByte b s).DONE = s.DONE := rfl
@[simp] theorem acceptByte_ERR (b : Byte) (s : State) :
    (acceptByte b s).ERR = s.ERR := rfl
@[simp] theorem acceptByte_PHASE (b : Byte) (s : State) :
    (acceptByte b s).PHASE = s.PHASE := rfl
@[simp] theorem acceptByte_T (b : Byte) (s : State) :
    (acceptByte b s).T = s.T := rfl
@[simp] theorem acceptByte_RET (b : Byte) (s : State) :
    (acceptByte b s).RET = s.RET := rfl
@[simp] theorem acceptByte_OUT (b : Byte) (s : State) :
    (acceptByte b s).OUT = s.OUT := rfl
@[simp] theorem acceptByte_IN (b : Byte) (s : State) :
    (acceptByte b s).IN = s.IN := rfl
@[simp] theorem acceptByte_free (b : Byte) (s : State) :
    (acceptByte b s).free = s.free := rfl

/-! ### `goto` -/

@[simp] theorem goto_H (p : Phase) (s : State) :
    (goto p s).H = s.H := rfl
@[simp] theorem goto_V (p : Phase) (s : State) :
    (goto p s).V = s.V := rfl
@[simp] theorem goto_W (p : Phase) (s : State) :
    (goto p s).W = s.W := rfl
@[simp] theorem goto_BLK (p : Phase) (s : State) :
    (goto p s).BLK = s.BLK := rfl
@[simp] theorem goto_PK (p : Phase) (s : State) :
    (goto p s).PK = s.PK := rfl
@[simp] theorem goto_BP (p : Phase) (s : State) :
    (goto p s).BP = s.BP := rfl
@[simp] theorem goto_N (p : Phase) (s : State) :
    (goto p s).N = s.N := rfl
@[simp] theorem goto_DIGEST (p : Phase) (s : State) :
    (goto p s).DIGEST = s.DIGEST := rfl
@[simp] theorem goto_OPEN (p : Phase) (s : State) :
    (goto p s).OPEN = s.OPEN := rfl
@[simp] theorem goto_DONE (p : Phase) (s : State) :
    (goto p s).DONE = s.DONE := rfl
@[simp] theorem goto_ERR (p : Phase) (s : State) :
    (goto p s).ERR = s.ERR := rfl
@[simp] theorem goto_PHASE (p : Phase) (s : State) :
    (goto p s).PHASE = p := rfl
@[simp] theorem goto_T (p : Phase) (s : State) :
    (goto p s).T = s.T := rfl
@[simp] theorem goto_RET (p : Phase) (s : State) :
    (goto p s).RET = s.RET := rfl
@[simp] theorem goto_OUT (p : Phase) (s : State) :
    (goto p s).OUT = s.OUT := rfl
@[simp] theorem goto_IN (p : Phase) (s : State) :
    (goto p s).IN = s.IN := rfl
@[simp] theorem goto_free (p : Phase) (s : State) :
    (goto p s).free = s.free := rfl

/-! ### `dispatch` -/

@[simp] theorem dispatch_H (r : Phase) (s : State) :
    (dispatch r s).H = s.H := rfl
@[simp] theorem dispatch_V (r : Phase) (s : State) :
    (dispatch r s).V = s.V := rfl
@[simp] theorem dispatch_W (r : Phase) (s : State) :
    (dispatch r s).W = s.W := rfl
@[simp] theorem dispatch_BLK (r : Phase) (s : State) :
    (dispatch r s).BLK = s.BLK := rfl
@[simp] theorem dispatch_PK (r : Phase) (s : State) :
    (dispatch r s).PK = s.PK := rfl
@[simp] theorem dispatch_BP (r : Phase) (s : State) :
    (dispatch r s).BP = s.BP := rfl
@[simp] theorem dispatch_N (r : Phase) (s : State) :
    (dispatch r s).N = s.N := rfl
@[simp] theorem dispatch_DIGEST (r : Phase) (s : State) :
    (dispatch r s).DIGEST = s.DIGEST := rfl
@[simp] theorem dispatch_OPEN (r : Phase) (s : State) :
    (dispatch r s).OPEN = s.OPEN := rfl
@[simp] theorem dispatch_DONE (r : Phase) (s : State) :
    (dispatch r s).DONE = s.DONE := rfl
@[simp] theorem dispatch_ERR (r : Phase) (s : State) :
    (dispatch r s).ERR = s.ERR := rfl
@[simp] theorem dispatch_PHASE (r : Phase) (s : State) :
    (dispatch r s).PHASE = .LOAD := rfl
@[simp] theorem dispatch_T (r : Phase) (s : State) :
    (dispatch r s).T = s.T := rfl
@[simp] theorem dispatch_RET (r : Phase) (s : State) :
    (dispatch r s).RET = r := rfl
@[simp] theorem dispatch_OUT (r : Phase) (s : State) :
    (dispatch r s).OUT = s.OUT := rfl
@[simp] theorem dispatch_IN (r : Phase) (s : State) :
    (dispatch r s).IN = s.IN := rfl
@[simp] theorem dispatch_free (r : Phase) (s : State) :
    (dispatch r s).free = s.free := rfl

/-! ### `raiseInvalidInput` -/

@[simp] theorem raiseInvalidInput_H (s : State) :
    (raiseInvalidInput s).H = s.H := rfl
@[simp] theorem raiseInvalidInput_V (s : State) :
    (raiseInvalidInput s).V = s.V := rfl
@[simp] theorem raiseInvalidInput_W (s : State) :
    (raiseInvalidInput s).W = s.W := rfl
@[simp] theorem raiseInvalidInput_BLK (s : State) :
    (raiseInvalidInput s).BLK = s.BLK := rfl
@[simp] theorem raiseInvalidInput_PK (s : State) :
    (raiseInvalidInput s).PK = s.PK := rfl
@[simp] theorem raiseInvalidInput_BP (s : State) :
    (raiseInvalidInput s).BP = s.BP := rfl
@[simp] theorem raiseInvalidInput_N (s : State) :
    (raiseInvalidInput s).N = s.N := rfl
@[simp] theorem raiseInvalidInput_DIGEST (s : State) :
    (raiseInvalidInput s).DIGEST = s.DIGEST := rfl
@[simp] theorem raiseInvalidInput_OPEN (s : State) :
    (raiseInvalidInput s).OPEN = false := rfl
@[simp] theorem raiseInvalidInput_DONE (s : State) :
    (raiseInvalidInput s).DONE = s.DONE := rfl
@[simp] theorem raiseInvalidInput_ERR (s : State) :
    (raiseInvalidInput s).ERR = true := rfl
@[simp] theorem raiseInvalidInput_PHASE (s : State) :
    (raiseInvalidInput s).PHASE = s.PHASE := rfl
@[simp] theorem raiseInvalidInput_T (s : State) :
    (raiseInvalidInput s).T = s.T := rfl
@[simp] theorem raiseInvalidInput_RET (s : State) :
    (raiseInvalidInput s).RET = s.RET := rfl
@[simp] theorem raiseInvalidInput_OUT (s : State) :
    (raiseInvalidInput s).OUT = s.OUT ++ [responseWord .INVALID_INPUT 0] := rfl
@[simp] theorem raiseInvalidInput_IN (s : State) :
    (raiseInvalidInput s).IN = s.IN := rfl
@[simp] theorem raiseInvalidInput_free (s : State) :
    (raiseInvalidInput s).free = s.free := rfl

/-! ### `restartMessage` -/

@[simp] theorem restartMessage_H (s : State) :
    (restartMessage s).H = s.H := rfl
@[simp] theorem restartMessage_V (s : State) :
    (restartMessage s).V = s.V := rfl
@[simp] theorem restartMessage_W (s : State) :
    (restartMessage s).W = s.W := rfl
@[simp] theorem restartMessage_BLK (s : State) :
    (restartMessage s).BLK = s.BLK := rfl
@[simp] theorem restartMessage_PK (s : State) :
    (restartMessage s).PK = s.PK := rfl
@[simp] theorem restartMessage_BP (s : State) :
    (restartMessage s).BP = 0 := rfl
@[simp] theorem restartMessage_N (s : State) :
    (restartMessage s).N = 0 := rfl
@[simp] theorem restartMessage_DIGEST (s : State) :
    (restartMessage s).DIGEST = s.DIGEST := rfl
@[simp] theorem restartMessage_OPEN (s : State) :
    (restartMessage s).OPEN = s.OPEN := rfl
@[simp] theorem restartMessage_DONE (s : State) :
    (restartMessage s).DONE = s.DONE := rfl
@[simp] theorem restartMessage_ERR (s : State) :
    (restartMessage s).ERR = s.ERR := rfl
@[simp] theorem restartMessage_PHASE (s : State) :
    (restartMessage s).PHASE = s.PHASE := rfl
@[simp] theorem restartMessage_T (s : State) :
    (restartMessage s).T = s.T := rfl
@[simp] theorem restartMessage_RET (s : State) :
    (restartMessage s).RET = s.RET := rfl
@[simp] theorem restartMessage_OUT (s : State) :
    (restartMessage s).OUT = s.OUT := rfl
@[simp] theorem restartMessage_IN (s : State) :
    (restartMessage s).IN = s.IN := rfl
@[simp] theorem restartMessage_free (s : State) :
    (restartMessage s).free = s.free := rfl

/-! ### `consumeInput` -/

@[simp] theorem consumeInput_H (s : State) :
    (consumeInput s).H = s.H := rfl
@[simp] theorem consumeInput_V (s : State) :
    (consumeInput s).V = s.V := rfl
@[simp] theorem consumeInput_W (s : State) :
    (consumeInput s).W = s.W := rfl
@[simp] theorem consumeInput_BLK (s : State) :
    (consumeInput s).BLK = s.BLK := rfl
@[simp] theorem consumeInput_PK (s : State) :
    (consumeInput s).PK = s.PK := rfl
@[simp] theorem consumeInput_BP (s : State) :
    (consumeInput s).BP = s.BP := rfl
@[simp] theorem consumeInput_N (s : State) :
    (consumeInput s).N = s.N := rfl
@[simp] theorem consumeInput_DIGEST (s : State) :
    (consumeInput s).DIGEST = s.DIGEST := rfl
@[simp] theorem consumeInput_OPEN (s : State) :
    (consumeInput s).OPEN = s.OPEN := rfl
@[simp] theorem consumeInput_DONE (s : State) :
    (consumeInput s).DONE = s.DONE := rfl
@[simp] theorem consumeInput_ERR (s : State) :
    (consumeInput s).ERR = s.ERR := rfl
@[simp] theorem consumeInput_PHASE (s : State) :
    (consumeInput s).PHASE = s.PHASE := rfl
@[simp] theorem consumeInput_T (s : State) :
    (consumeInput s).T = s.T := rfl
@[simp] theorem consumeInput_RET (s : State) :
    (consumeInput s).RET = s.RET := rfl
@[simp] theorem consumeInput_OUT (s : State) :
    (consumeInput s).OUT = s.OUT := rfl
@[simp] theorem consumeInput_IN (s : State) :
    (consumeInput s).IN = inputAfter s := rfl
@[simp] theorem consumeInput_free (s : State) :
    (consumeInput s).free = s.free := rfl

/-! ### `takeReset` -/

@[simp] theorem takeReset_BP (s : State) :
    (takeReset s).BP = 0 := rfl
@[simp] theorem takeReset_N (s : State) :
    (takeReset s).N = 0 := rfl
@[simp] theorem takeReset_OPEN (s : State) :
    (takeReset s).OPEN = false := rfl
@[simp] theorem takeReset_DONE (s : State) :
    (takeReset s).DONE = false := rfl
@[simp] theorem takeReset_ERR (s : State) :
    (takeReset s).ERR = false := rfl
@[simp] theorem takeReset_PHASE (s : State) :
    (takeReset s).PHASE = .REST := rfl
@[simp] theorem takeReset_T (s : State) :
    (takeReset s).T = 0 := rfl
@[simp] theorem takeReset_RET (s : State) :
    (takeReset s).RET = .REST := rfl
@[simp] theorem takeReset_OUT (s : State) :
    (takeReset s).OUT = s.OUT := rfl
@[simp] theorem takeReset_IN (s : State) :
    (takeReset s).IN = s.IN := rfl
@[simp] theorem takeReset_free (s : State) :
    (takeReset s).free = s.free + 161 := rfl

end Sys2Proof.Machine
end

