-- ==== Sys2Proof/Laws/Step.lean ====
section
/-! SUPPORT. Laws/Step.lean: what one step does, by its cases, and runs of several steps. -/

namespace Sys2Proof.Machine

/-! ### The input -/

theorem inputAfter_nil (s : State) (h : s.IN = []) : inputAfter s = [] := by simp [inputAfter, h]

theorem inputAfter_idle (s : State) (rest : List HostInput) (h : s.IN = .idle :: rest) : inputAfter s = rest := by
  simp [inputAfter, h]

theorem inputAfter_reset (s : State) (rest : List HostInput) (h : s.IN = .reset :: rest) : inputAfter s = rest := by
  simp [inputAfter, h]

theorem inputAfter_accepted (s : State) (w : Word) (rest : List HostInput) (hp : s.PHASE = .REST)
    (h : s.IN = .command w :: rest) : inputAfter s = rest := by
  simp [inputAfter, h, State.cmdReady, hp]

theorem inputAfter_waiting (s : State) (w : Word) (rest : List HostInput) (hp : s.PHASE ≠ .REST)
    (h : s.IN = .command w :: rest) : inputAfter s = s.IN := by
  simp [inputAfter, h, State.cmdReady, hp]

/-- While the machine is busy a list of command words is left as it is. -/
theorem inputAfter_commands (s : State) (ws : List Word) (hp : s.PHASE ≠ .REST) (h : s.IN = ws.map .command) :
    inputAfter s = s.IN := by
  cases ws with
  | nil => rw [h]; exact inputAfter_nil s h
  | cons w ws => exact inputAfter_waiting s w _ hp h

theorem consumeInput_of_eq (s : State) (h : inputAfter s = s.IN) : consumeInput s = s := by
  simp [consumeInput, h]

/-! ### The cases of a step -/

theorem step_reset (s : State) (rest : List HostInput) (h : s.IN = .reset :: rest) :
    step s = .next (takeReset { s with IN := rest }) := by
  simp [step, nextStep, h, consumeInput, inputAfter]

theorem step_rest_nil (s : State) (hp : s.PHASE = .REST) (h : s.IN = []) : step s = .next s := by
  have hc := consumeInput_of_eq s (by rw [inputAfter_nil s h, h])
  simp [step, nextStep, sequencerStep, hp, Phase.microOp, h, hc]

theorem step_rest_idle (s : State) (rest : List HostInput) (hp : s.PHASE = .REST) (h : s.IN = .idle :: rest) :
    step s = .next { s with IN := rest } := by
  simp [step, nextStep, sequencerStep, hp, Phase.microOp, h, consumeInput, inputAfter]

theorem step_command (s : State) (w : Word) (rest : List HostInput) (hp : s.PHASE = .REST)
    (h : s.IN = .command w :: rest) :
    step s = match decodeWord w with
      | .ok i => exec i { s with IN := rest }
      | .error _ => .next (answerIllegal { s with IN := rest }) := by
  have hc : consumeInput s = { s with IN := rest } := by rw [consumeInput, inputAfter_accepted s w rest hp h]
  simp only [step, nextStep, sequencerStep, h, hp, Phase.microOp, wordStep, hc]
  cases decodeWord w <;> rfl

theorem step_microOp (s : State) (i : Instr) (hp : s.PHASE.microOp = .ok i) (h : ∀ rest, s.IN ≠ .reset :: rest) :
    step s = exec i (consumeInput s) := by
  have : nextStep s = .run i := by
    unfold nextStep
    split
    · exact absurd ‹_› (h _)
    · simp [sequencerStep, hp]
  simp [step, this]

/-- A busy machine that is offered only command words runs the micro-operation of its phase on the state as it is. -/
theorem step_busy (s : State) (i : Instr) (ws : List Word) (hp : s.PHASE.microOp = .ok i) (h : s.IN = ws.map .command) :
    step s = exec i s := by
  have hr : s.PHASE ≠ .REST := by intro hr; simp [hr, Phase.microOp] at hp
  rw [step_microOp s i hp, consumeInput_of_eq s (inputAfter_commands s ws hr h)]
  intro rest hc
  rw [h] at hc
  cases ws <;> simp at hc

/-- The decoder of the port yields commands only. -/
theorem decodeWord_onPort (w : Word) (i : Instr) (h : decodeWord w = .ok i) : i.onPort = true := by
  obtain ⟨-, h7, -, -, rfl⟩ := decodeWord_ok w i h
  rcases op_cases _ h7 with h | h | h | h | h | h | h <;> rw [h] <;> rfl

/-- Everything a step can do. -/
theorem step_cases (s t : State) (h : step s = .next t) :
    (nextStep s = .reset ∧ ∃ rest, s.IN = .reset :: rest ∧ t = takeReset { s with IN := rest }) ∨
    (nextStep s = .rest ∧ s.PHASE = .REST ∧ t = consumeInput s) ∨
    (nextStep s = .illegal ∧ s.PHASE = .REST ∧ ∃ w rest e, s.IN = .command w :: rest ∧ decodeWord w = .error e ∧
      t = answerIllegal { s with IN := rest }) ∨
    (s.PHASE = .REST ∧ ∃ w rest i, s.IN = .command w :: rest ∧ decodeWord w = .ok i ∧ i.onPort = true ∧
      nextStep s = .run i ∧ exec i { s with IN := rest } = .next t) ∨
    (∃ i, s.PHASE.microOp = .ok i ∧ i.onPort = false ∧ nextStep s = .run i ∧ exec i (consumeInput s) = .next t) := by
  have hm : ∀ i, s.PHASE.microOp = .ok i → (∀ rest, s.IN ≠ .reset :: rest) → i.onPort = false ∧ nextStep s = .run i := by
    intro i hi hr
    constructor
    · cases hp : s.PHASE <;> rw [hp] at hi <;> cases hi <;> rfl
    · unfold nextStep
      split
      · exact absurd ‹_› (hr _)
      · simp [sequencerStep, hi]
  rcases hin : s.IN with _ | ⟨x, rest⟩
  · by_cases hp : s.PHASE = .REST
    · rw [step_rest_nil s hp hin] at h
      cases h
      refine .inr (.inl ⟨?_, hp, ?_⟩)
      · simp [nextStep, hin, sequencerStep, hp, Phase.microOp]
      · rw [consumeInput_of_eq s (by rw [inputAfter_nil s hin, hin])]
    · obtain ⟨i, hi⟩ : ∃ i, s.PHASE.microOp = .ok i := by cases hq : s.PHASE <;> simp_all [Phase.microOp]
      have hr : ∀ rest, s.IN ≠ .reset :: rest := by simp [hin]
      rw [step_microOp s i hi hr] at h
      exact .inr (.inr (.inr (.inr ⟨i, hi, (hm i hi hr).1, (hm i hi hr).2, h⟩)))
  · cases x with
    | reset =>
      rw [step_reset s rest hin] at h
      cases h
      exact .inl ⟨by simp [nextStep, hin], rest, rfl, rfl⟩
    | idle =>
      by_cases hp : s.PHASE = .REST
      · rw [step_rest_idle s rest hp hin] at h
        cases h
        refine .inr (.inl ⟨?_, hp, ?_⟩)
        · simp [nextStep, hin, sequencerStep, hp, Phase.microOp]
        · rw [consumeInput, inputAfter_idle s rest hin]
      · obtain ⟨i, hi⟩ : ∃ i, s.PHASE.microOp = .ok i := by cases hq : s.PHASE <;> simp_all [Phase.microOp]
        have hr : ∀ rest, s.IN ≠ .reset :: rest := by simp [hin]
        rw [step_microOp s i hi hr] at h
        exact .inr (.inr (.inr (.inr ⟨i, hi, (hm i hi hr).1, (hm i hi hr).2, h⟩)))
    | command w =>
      by_cases hp : s.PHASE = .REST
      · have hn : nextStep s = wordStep w := by simp [nextStep, hin, sequencerStep, hp, Phase.microOp]
        rw [step_command s w rest hp hin] at h
        cases hd : decodeWord w with
        | error e =>
          rw [hd] at h
          cases h
          exact .inr (.inr (.inl ⟨by rw [hn, wordStep, hd], hp, w, rest, e, rfl, hd, rfl⟩))
        | ok i =>
          rw [hd] at h
          exact .inr (.inr (.inr (.inl ⟨hp, w, rest, i, rfl, hd, decodeWord_onPort w i hd, by rw [hn, wordStep, hd], h⟩)))
      · obtain ⟨i, hi⟩ : ∃ i, s.PHASE.microOp = .ok i := by cases hq : s.PHASE <;> simp_all [Phase.microOp]
        have hr : ∀ rest, s.IN ≠ .reset :: rest := by simp [hin]
        rw [step_microOp s i hi hr] at h
        exact .inr (.inr (.inr (.inr ⟨i, hi, (hm i hi hr).1, (hm i hi hr).2, h⟩)))

/-! ### Runs -/

theorem run_zero (s : State) : Sys2Proof.core.run 0 s = .next s := rfl

theorem run_succ (k : Nat) (s : State) : Sys2Proof.core.run (k + 1) s =
    match step s with
    | .next t => Sys2Proof.core.run k t
    | .fault r => .fault r
    | .refused r => .refused r := by
  refine (Host.Core.run.eq_2 Sys2Proof.core s k).trans ?_
  cases h : step s with
  | next t => rw [show Sys2Proof.core.step s = .next t from h]
  | fault r => rw [show Sys2Proof.core.step s = .fault r from h]
  | refused r => rw [show Sys2Proof.core.step s = .refused r from h]

theorem run_succ_of_step (k : Nat) (s t : State) (h : step s = .next t) :
    Sys2Proof.core.run (k + 1) s = Sys2Proof.core.run k t := by
  rw [run_succ, h]

theorem run_one (s : State) : Sys2Proof.core.run 1 s = step s := by
  rw [run_succ]; cases step s <;> rfl

theorem run_add (j k : Nat) (s t : State) (h : Sys2Proof.core.run j s = .next t) :
    Sys2Proof.core.run (j + k) s = Sys2Proof.core.run k t := by
  induction j generalizing s with
  | zero => cases h; rw [Nat.zero_add]
  | succ j ih =>
    rw [Nat.add_right_comm, run_succ]
    rw [run_succ] at h
    cases hs : step s with
    | next u => rw [hs] at h; exact ih u h
    | fault r => rw [hs] at h; cases h
    | refused r => rw [hs] at h; cases h

/-- One micro-step of a busy machine that is offered only command words. -/
theorem run_busy (k : Nat) (s t : State) (i : Instr) (ws : List Word) (hp : s.PHASE.microOp = .ok i)
    (hin : s.IN = ws.map .command) (he : exec i s = .next t) :
    Sys2Proof.core.run (k + 1) s = Sys2Proof.core.run k t :=
  run_succ_of_step k s t (by rw [step_busy s i ws hp hin, he])

/-- The acceptance of a command at REST. -/
theorem run_accepted (k : Nat) (s t : State) (w : Word) (i : Instr) (rest : List HostInput) (hp : s.PHASE = .REST)
    (hin : s.IN = .command w :: rest) (hd : decodeWord w = .ok i) (he : exec i { s with IN := rest } = .next t) :
    Sys2Proof.core.run (k + 1) s = Sys2Proof.core.run k t :=
  run_succ_of_step k s t (by rw [step_command s w rest hp hin, hd]; exact he)

end Sys2Proof.Machine
end

