-- ==== Sys2Proof/Laws/Ops.lean ====
section
/-! SUPPORT. Laws/Ops.lean: one lemma per shared operation that says everything it does, and the register files
element by element. -/

namespace Sys2Proof.Machine

theorem pushFull_iff (s : State) : pushFull s = true ↔ s.BP.toNat = 63 := by
  simp only [pushFull, beq_iff_eq, ← BitVec.toNat_inj]; rfl

/-- Everything `push` does. -/
theorem push_pushed (b : Byte) (s : State) : Pushed b s (push b s) := by
  refine ⟨packByte_toNat _ _, ?_, ?_⟩
  · rw [push_BP, BitVec.toNat_add]; rfl
  · intro j h
    by_cases h3 : s.BP.toNat % 4 = 3
    · have hb : (push b s).BLK = s.BLK.set (wordIndex s.BP).toNat (packByte s.PK b) (wordIndex_lt s.BP) :=
        if_pos ((byteIndex_eq_three _).2 h3)
      simp only [hb, Vector.getElem_set, wordIndex_toNat, h3, true_and, push_PK, eq_comm]
    · have hb : (push b s).BLK = s.BLK := if_neg (fun h => h3 ((byteIndex_eq_three _).1 h))
      rw [if_neg (fun h => h3 h.1)]
      simp only [hb]

theorem acceptByte_pushed (b : Byte) (s : State) : Pushed b s (acceptByte b s) := by
  have h := push_pushed b s
  exact ⟨h.packer, h.pointer, h.block⟩

theorem acceptByte_N_toNat (b : Byte) (s : State) : (acceptByte b s).N.toNat = (s.N.toNat + 1) % 2 ^ 61 := by
  rw [acceptByte_N, BitVec.toNat_add]; rfl

/-- A pushed state is determined by the byte. -/
theorem Pushed.unique {b : Byte} {s t u : State} (ht : Pushed b s t) (hu : Pushed b s u) :
    t.PK = u.PK ∧ t.BP = u.BP ∧ t.BLK = u.BLK := by
  have hp : t.PK = u.PK := BitVec.eq_of_toNat_eq (ht.packer.trans hu.packer.symm)
  refine ⟨hp, BitVec.eq_of_toNat_eq (ht.pointer.trans hu.pointer.symm), ?_⟩
  apply Vector.ext
  intro j hj
  rw [ht.block j hj, hu.block j hj, hp]

/-! ### Register files element by element -/

theorem loadSchedule_low (b : Block) (w : Schedule) (j : Nat) (h : j < 16) :
    (loadSchedule b w)[j] = b[j] := by
  simp [loadSchedule, h]

theorem loadSchedule_high (b : Block) (w : Schedule) (j : Nat) (h : j < 64) (h16 : 16 ≤ j) :
    (loadSchedule b w)[j] = w[j] := by
  simp [loadSchedule, Nat.not_lt.2 h16]

@[simp] theorem addLanes_getElem (h v : Words8) (j : Nat) (hj : j < 8) : (addLanes h v)[j] = h[j] + v[j] := by
  simp [addLanes]

theorem writeHex_in (d : Digest) (n : Nat) (w : Word) (k : Nat) (hk : k < 64) (h : k / 8 = n) :
    (writeHex d n w)[k] = hexchar (nibbleOf w (k % 8)) := by
  simp [writeHex, h]

theorem writeHex_out (d : Digest) (n : Nat) (w : Word) (k : Nat) (hk : k < 64) (h : k / 8 ≠ n) :
    (writeHex d n w)[k] = d[k] := by
  simp [writeHex, h]

@[simp] theorem encodeDigest_getElem (h : Words8) (k : Nat) (hk : k < 64) :
    (encodeDigest h)[k] = hexchar (nibbleOf (h[k / 8]'(by omega)) (k % 8)) := by
  simp [encodeDigest]

/-! ### Responses and status -/

theorem responseWord_toNat (rc : Rc) (data : BitVec 28) :
    (responseWord rc data).toNat = rc.code.toNat * 2 ^ 28 + data.toNat := by
  have := data.isLt
  simp only [responseWord, BitVec.toNat_append, Nat.shiftLeft_eq]
  rw [Nat.mul_comm, ← Nat.two_pow_add_eq_or_of_lt this]

theorem status_toNat (s : State) : s.status.toNat = 4 * s.ERR.toNat + 2 * s.DONE.toNat + s.OPEN.toNat := by
  unfold State.status
  cases s.ERR <;> cases s.DONE <;> cases s.OPEN <;> rfl

/-- The flags of a message state. -/
theorem msgState_eq_some (s : State) (m : MsgState) : s.msgState = some m ↔
    (s.OPEN = decide (m = .OPEN) ∧ s.DONE = decide (m = .DONE) ∧ s.ERR = decide (m = .ERR)) := by
  unfold State.msgState
  cases s.OPEN <;> cases s.DONE <;> cases s.ERR <;> cases m <;> decide

theorem status_of_msgState (s : State) (m : MsgState) (h : s.msgState = some m) : s.status = m.statusValue := by
  obtain ⟨h1, h2, h3⟩ := (msgState_eq_some s m).1 h
  unfold State.status
  rw [h1, h2, h3]
  cases m <;> rfl

end Sys2Proof.Machine
end

