-- ==== Sys2Proof/Laws/Exec.lean ====
section
/-! SUPPORT. Laws/Exec.lean: the meanings that have several cases, one lemma per case. -/

namespace Sys2Proof.Machine

variable {s : State}

/-! ### CHAR and FINAL (44_commands.md R231, R235, R240) -/

theorem execChar_failed (c : Elem) (h : s.ERR = true) : execChar c s = .next (respond .INVALID_INPUT 0 s) := if_pos h

theorem execChar_closed (c : Elem) (he : s.ERR = false) (ho : s.OPEN = false) :
    execChar c s = .next (respond .SEQ 0 s) := by simp [execChar, he, ho]

theorem execChar_rejected (c : Elem) (he : s.ERR = false) (ho : s.OPEN = true) (hc : 255 < c.toNat) :
    execChar c s = .next (raiseInvalidInput s) := by simp [execChar, he, ho, outOfRange, hc]

theorem execChar_full (c : Elem) (he : s.ERR = false) (ho : s.OPEN = true) (hc : c.toNat ≤ 255) (hb : s.BP.toNat = 63) :
    execChar c s = .next (dispatch .REST (acceptByte (elemByte c) s)) := by
  simp [execChar, he, ho, outOfRange, Nat.not_lt.2 hc, (pushFull_iff s).2 hb]

theorem execChar_pushed (c : Elem) (he : s.ERR = false) (ho : s.OPEN = true) (hc : c.toNat ≤ 255)
    (hb : s.BP.toNat ≠ 63) : execChar c s = .next (respond .OK 0 (acceptByte (elemByte c) s)) := by
  have hf : pushFull s = false := by
    rw [Bool.eq_false_iff]; exact fun hf => hb ((pushFull_iff s).1 hf)
  simp [execChar, he, ho, outOfRange, Nat.not_lt.2 hc, hf]

theorem execFinal_failed (h : s.ERR = true) : execFinal s = .next (respond .INVALID_INPUT 0 s) := if_pos h

theorem execFinal_closed (he : s.ERR = false) (ho : s.OPEN = false) : execFinal s = .next (respond .SEQ 0 s) := by
  simp [execFinal, he, ho]

theorem execFinal_open (he : s.ERR = false) (ho : s.OPEN = true) : execFinal s = .next (goto .PAD80 s) := by
  simp [execFinal, he, ho]

theorem execRdchr_done (n : BitVec 6) (h : s.DONE = true) :
    execRdchr n s = .next (respond .OK ((readDigest s.DIGEST n).setWidth 28) s) := if_pos h

theorem execRdchr_none (n : BitVec 6) (h : s.DONE = false) : execRdchr n s = .next (respond .SEQ 0 s) := by
  simp [execRdchr, h]

/-! ### The padding engine (41_preprocessor.md R145, R146) -/

theorem execPad80_full (hb : s.BP.toNat = 63) : execPad80 s = .next (dispatch .PAD00 (push 0x80 s)) :=
  if_pos ((pushFull_iff s).2 hb)

theorem execPad80_pushed (hb : s.BP.toNat ≠ 63) : execPad80 s = .next (goto .PAD00 (push 0x80 s)) :=
  if_neg fun h => hb ((pushFull_iff s).1 h)

theorem BP_eq_56 (s : State) : s.BP = 56 ↔ s.BP.toNat = 56 := by rw [← BitVec.toNat_inj]; rfl

theorem execPad00_found (hb : s.BP.toNat = 56) : execPad00 s = .next (goto .LEN s) :=
  if_pos ((BP_eq_56 s).2 hb)

theorem execPad00_full (hb : s.BP.toNat = 63) : execPad00 s = .next (dispatch .PAD00 (push 0x00 s)) := by
  have h : ¬ s.BP = 56 := fun h => by have := (BP_eq_56 s).1 h; omega
  rw [execPad00, if_neg h, if_pos ((pushFull_iff s).2 hb)]

theorem execPad00_pushed (hb : s.BP.toNat ≠ 56) (hb' : s.BP.toNat ≠ 63) :
    execPad00 s = .next (goto .PAD00 (push 0x00 s)) := by
  rw [execPad00, if_neg fun h => hb ((BP_eq_56 s).1 h), if_neg fun h => hb' ((pushFull_iff s).1 h)]

theorem execLen_next (s : State) : execLen s = .next (dispatch .ENC
    { s with BLK := (s.BLK.set 14 (lengthHigh s.N)).set 15 (lengthLow s.N), BP := 0 }) := by unfold execLen; rfl

/-! ### The compression engine and the encoder (42_compression.md R174, R177, R178, 43_encoder.md R214) -/

theorem execLoad_next (s : State) :
    execLoad s = .next (goto .SCHED { s with W := loadSchedule s.BLK s.W, T := 16 }) := by unfold execLoad; rfl

theorem execInit_next (s : State) : execInit s = .next (goto .ROUND { s with V := s.H, T := 0 }) := by
  unfold execInit; rfl

theorem T_eq_63 (s : State) : s.T = 63 ↔ s.T.toNat = 63 := by rw [← BitVec.toNat_inj]; rfl

theorem T_eq_7 (s : State) : s.T = 7 ↔ s.T.toNat = 7 := by rw [← BitVec.toNat_inj]; rfl

theorem execSched_outside (h : s.T.toNat < 16) : execSched s = .fault .indexOutOfRange := if_pos h

/-- The schedule after one SCHED step. -/
def schedStep (s : State) : Schedule :=
  s.W.set s.T.toNat (scheduleWord s.W s.T.toNat (index_lt s.T)) (index_lt s.T)

theorem execSched_last (h : s.T.toNat = 63) :
    execSched s = .next { s with W := schedStep s, T := 0, PHASE := .INIT } := by
  rw [execSched, if_neg (by omega)]
  exact if_pos ((T_eq_63 s).2 h)

theorem execSched_more (h : 16 ≤ s.T.toNat) (h' : s.T.toNat < 63) :
    execSched s = .next { s with W := schedStep s, T := s.T + 1 } := by
  rw [execSched, if_neg (by omega)]
  exact if_neg fun hh => by have := (T_eq_63 s).1 hh; omega

/-- The working variables after one ROUND step. -/
def roundStep (s : State) : Words8 := roundFn s.V (readSchedule romK s.T) (readSchedule s.W s.T)

theorem execRound_last (h : s.T.toNat = 63) :
    execRound s = .next { s with V := roundStep s, T := 0, PHASE := .ACCUM } :=
  if_pos ((T_eq_63 s).2 h)

theorem execRound_more (h : s.T.toNat < 63) :
    execRound s = .next { s with V := roundStep s, T := s.T + 1 } :=
  if_neg fun hh => by have := (T_eq_63 s).1 hh; omega

theorem execAccum_rest (h : s.RET = .REST) :
    execAccum s = .next (respond .OK 0 (goto .REST { s with H := addLanes s.H s.V })) := by
  unfold execAccum; rw [if_pos h, h]

theorem execAccum_other (h : s.RET ≠ .REST) :
    execAccum s = .next (goto s.RET { s with H := addLanes s.H s.V }) := if_neg h

theorem execEnc_outside (h : 8 ≤ s.T.toNat) : execEnc s = .fault .indexOutOfRange := dif_neg (by omega)

/-- The digest after one ENC step. -/
def encStep (s : State) (h : s.T.toNat < 8) : Digest := writeHex s.DIGEST s.T.toNat s.H[s.T.toNat]

theorem execEnc_last (h : s.T.toNat = 7) :
    execEnc s = .next { s with
      DIGEST := encStep s (by omega), T := 0, OPEN := false, DONE := true, PHASE := .REST,
      OUT := s.OUT ++ [responseWord .OK 0] } := by
  rw [execEnc, dif_pos (by omega), if_pos ((T_eq_7 s).2 h)]
  simp only [respond, goto, flagsDone, encStep]

theorem execEnc_more (h : s.T.toNat < 7) :
    execEnc s = .next { s with DIGEST := encStep s (by omega), T := s.T + 1 } := by
  rw [execEnc, dif_pos (by omega)]
  exact if_neg fun hh => by have := (T_eq_7 s).1 hh; omega

end Sys2Proof.Machine
end

