-- ==== Sys2Proof/Laws/Hash.lean ====
section
/-! SUPPORT. Laws/Hash.lean: the pure functions of Machine/Hash.lean, step by step and element by element. -/

namespace Sys2Proof.Machine

/-! ### The schedule (42_compression.md R173) -/

theorem scheduleAfter_succ (b : Block) (w : Schedule) (n : Nat) (h : 16 + n < 64) :
    scheduleAfter b w (n + 1) =
      (scheduleAfter b w n).set (16 + n) (scheduleWord (scheduleAfter b w n) (16 + n) h) h := by
  rw [scheduleAfter]; exact dif_pos h

/-- A word once computed is kept. -/
theorem scheduleAfter_kept (b : Block) (w : Schedule) (n d j : Nat) (hj : j < 64) (h : j < 16 + n) :
    (scheduleAfter b w (n + d))[j] = (scheduleAfter b w n)[j] := by
  induction d with
  | zero => rfl
  | succ d ih =>
    rw [← ih]
    by_cases hd : 16 + (n + d) < 64
    · simp only [← Nat.add_assoc, scheduleAfter_succ b w (n + d) hd]
      rw [Vector.getElem_set_ne]; omega
    · have : scheduleAfter b w (n + d + 1) = scheduleAfter b w (n + d) := by rw [scheduleAfter]; exact dif_neg hd
      simp only [← Nat.add_assoc, this]

/-- A schedule word depends on the words before it only. -/
theorem scheduleWord_congr (w u : Schedule) (n : Nat) (h : n < 64) (h16 : 16 ≤ n)
    (hwu : ∀ j : Nat, ∀ hj : j < n, w[j] = u[j]) : scheduleWord w n h = scheduleWord u n h := by
  unfold scheduleWord
  rw [hwu (n - 2) (by omega), hwu (n - 7) (by omega), hwu (n - 15) (by omega), hwu (n - 16) (by omega)]

theorem set_congr (w u : Schedule) (n : Nat) (h : n < 64) (x y : Word) (hxy : x = y) (j : Nat) (hj : j < 64)
    (hwu : j ≠ n → w[j] = u[j]) : (w.set n x h)[j] = (u.set n y h)[j] := by
  subst hxy
  rw [Vector.getElem_set, Vector.getElem_set]
  split
  · rfl
  · exact hwu fun e => ‹¬n = j› e.symm

/-- Two computations of the schedule from the same block agree on the computed part, whatever the register held. -/
theorem scheduleAfter_agree (b : Block) (w u : Schedule) (n j : Nat) (hj : j < 64) (h : j < 16 + n) :
    (scheduleAfter b w n)[j] = (scheduleAfter b u n)[j] := by
  induction n generalizing j with
  | zero => exact (loadSchedule_low b w j h).trans (loadSchedule_low b u j h).symm
  | succ n ih =>
    by_cases hn : 16 + n < 64
    · simp only [scheduleAfter_succ _ _ n hn]
      refine set_congr _ _ _ _ _ _ ?_ j hj fun hne => ih j hj (by omega)
      exact scheduleWord_congr _ _ _ hn (by omega) fun k hk => ih k (by omega) hk
    · have e : ∀ v, scheduleAfter b v (n + 1) = scheduleAfter b v n := fun v => by rw [scheduleAfter]; exact dif_neg hn
      simp only [e]
      exact ih j hj (by omega)

/-- After all 48 steps the register holds the schedule of its block. -/
theorem scheduleAfter_eq_schedule (b : Block) (w : Schedule) : scheduleAfter b w 48 = schedule b := by
  apply Vector.ext
  intro j hj
  exact scheduleAfter_agree b w _ 48 j hj (by omega)

theorem schedule_getElem (b : Block) (n j : Nat) (hn : n ≤ 48) (hj : j < 64) (h : j < 16 + n) :
    (schedule b)[j] = (scheduleAfter b (Vector.replicate 64 0) n)[j] := by
  obtain ⟨d, hd⟩ := Nat.exists_eq_add_of_le hn
  unfold schedule
  rw [hd]
  exact scheduleAfter_kept b _ n d j hj h

/-! ### The rounds (R180) -/

theorem roundsAfter_succ (w : Schedule) (v : Words8) (n : Nat) (h : n < 64) :
    roundsAfter w v (n + 1) = roundFn (roundsAfter w v n) romK[n] w[n] := by
  rw [roundsAfter]; exact dif_pos h

/-! ### Words and blocks (41_preprocessor.md R150, 42_compression.md R181) -/

theorem packWords_cons (p0 p1 p2 p3 : Byte) (m : List Byte) :
    packWords (p0 :: p1 :: p2 :: p3 :: m) = packWord p0 p1 p2 p3 :: packWords m := rfl

theorem packWords_length (m : List Byte) : (packWords m).length = m.length / 4 := by
  induction m using packWords.induct with
  | case1 p0 p1 p2 p3 m ih => rw [packWords_cons]; simp only [List.length_cons, ih]; omega
  | case2 m h =>
    rw [packWords]
    · rcases m with _ | ⟨a, _ | ⟨b, _ | ⟨c, _ | ⟨d, m⟩⟩⟩⟩ <;> simp
      exact absurd rfl (h a b c d m)
    · exact h

/-- Packing goes word by word: a whole number of words can be cut off. -/
theorem packWords_append (m l : List Byte) (h : m.length % 4 = 0) : packWords (m ++ l) = packWords m ++ packWords l := by
  induction m using packWords.induct with
  | case1 p0 p1 p2 p3 m ih =>
    have : m.length % 4 = 0 := by simp only [List.length_cons] at h; omega
    simp only [List.cons_append, packWords_cons, ih this]
  | case2 m hm =>
    rcases m with _ | ⟨a, _ | ⟨b, _ | ⟨c, _ | ⟨d, m⟩⟩⟩⟩
    · rfl
    · simp at h
    · simp at h
    · simp at h
    · exact absurd rfl (hm a b c d m)

/-- Byte `k` of packed word `j` is byte `4j + k` of the sequence. -/
theorem packWords_byte (m : List Byte) (h : m.length % 4 = 0) (j k : Nat) (hk : k < 4) (hj : j < m.length / 4) :
    byteOf ((packWords m).getD j 0) k = m.getD (4 * j + k) 0 := by
  induction m using packWords.induct generalizing j with
  | case1 p0 p1 p2 p3 m ih =>
    have hm : m.length % 4 = 0 := by simp only [List.length_cons] at h; omega
    obtain ⟨h0, h1, h2, h3⟩ := byteOf_packWord p0 p1 p2 p3
    rw [packWords_cons]
    cases j with
    | zero => rcases (by omega : k = 0 ∨ k = 1 ∨ k = 2 ∨ k = 3) with h | h | h | h <;> subst h <;> simp [*]
    | succ j =>
      rw [List.getD_cons_succ, ih hm j (by simp only [List.length_cons] at hj; omega),
        show 4 * (j + 1) + k = 4 * j + k + 4 by omega]
      rfl
  | case2 m hm =>
    rcases m with _ | ⟨a, _ | ⟨b, _ | ⟨c, _ | ⟨d, m⟩⟩⟩⟩
    · simp at hj
    · simp at h
    · simp at h
    · simp at h
    · exact absurd rfl (hm a b c d m)

theorem compressBlocks_succ (n : Nat) (h : Words8) (ws : List Word) :
    compressBlocks (n + 1) h ws = compressBlocks n (compress h (blockOf ws)) (ws.drop 16) := rfl

theorem blockOf_getElem (ws : List Word) (j : Nat) (h : j < 16) : (blockOf ws)[j] = ws.getD j 0 := by
  simp [blockOf]

/-- A block is determined by its first sixteen words. -/
theorem blockOf_append (ws l : List Word) (h : 16 ≤ ws.length) : blockOf (ws ++ l) = blockOf ws := by
  apply Vector.ext
  intro j hj
  simp only [blockOf_getElem _ j hj, List.getD_eq_getElem?_getD]
  rw [List.getElem?_append_left (by omega)]

theorem compressBlocks_append (n : Nat) (h : Words8) (ws l : List Word) (hn : ws.length = 16 * n) (k : Nat) :
    compressBlocks (n + k) h (ws ++ l) = compressBlocks k (compressBlocks n h ws) l := by
  induction n generalizing h ws with
  | zero => have : ws = [] := List.eq_nil_of_length_eq_zero (by omega); subst this; rw [Nat.zero_add]; rfl
  | succ n ih =>
    rw [show n + 1 + k = n + k + 1 by omega, compressBlocks_succ, compressBlocks_succ, blockOf_append _ _ (by omega),
      List.drop_append_of_le_length (by omega)]
    exact ih _ _ (by rw [List.length_drop]; omega)

/-- `compress_all` over a concatenation of whole blocks. -/
theorem compressAll_append (h : Words8) (ws l : List Word) (hw : ws.length % 16 = 0) :
    compressAll h (ws ++ l) = compressAll (compressAll h ws) l := by
  unfold compressAll
  rw [List.length_append, show (ws.length + l.length) / 16 = ws.length / 16 + l.length / 16 by omega]
  exact compressBlocks_append _ _ _ _ (by omega) _

theorem compressAll_block (h : Words8) (ws : List Word) (hw : ws.length = 16) :
    compressAll h ws = compress h (blockOf ws) := by
  unfold compressAll; rw [hw]; rfl

theorem compressAll_nil (h : Words8) : compressAll h [] = h := rfl

end Sys2Proof.Machine
end

