-- ==== Sys2Proof/Laws/PerInstr.lean ====
section
/-! SUPPORT. Laws/PerInstr.lean: statements about every instruction as syntax, one lemma per constructor. -/

namespace Sys2Proof.Laws.EncodingSpace

/-- An instruction is sent on the command port exactly when its code is a command word (30_encoding.md R90, R101). -/
def Statement (i : Instr) : Prop := i.onPort = true ↔ ∃ w, encode i = .port w

theorem nop : Statement .nop := ⟨fun _ => ⟨_, rfl⟩, fun _ => rfl⟩
theorem start : Statement .start := ⟨fun _ => ⟨_, rfl⟩, fun _ => rfl⟩
theorem char (c : Elem) : Statement (.char c) := ⟨fun _ => ⟨_, rfl⟩, fun _ => rfl⟩
theorem final : Statement .final := ⟨fun _ => ⟨_, rfl⟩, fun _ => rfl⟩
theorem rdchr (i : BitVec 6) : Statement (.rdchr i) := ⟨fun _ => ⟨_, rfl⟩, fun _ => rfl⟩
theorem rdstat : Statement .rdstat := ⟨fun _ => ⟨_, rfl⟩, fun _ => rfl⟩
theorem clear : Statement .clear := ⟨fun _ => ⟨_, rfl⟩, fun _ => rfl⟩
theorem pad80 : Statement .pad80 := ⟨nofun, nofun⟩
theorem pad00 : Statement .pad00 := ⟨nofun, nofun⟩
theorem len : Statement .len := ⟨nofun, nofun⟩
theorem load : Statement .load := ⟨nofun, nofun⟩
theorem sched : Statement .sched := ⟨nofun, nofun⟩
theorem init : Statement .init := ⟨nofun, nofun⟩
theorem round : Statement .round := ⟨nofun, nofun⟩
theorem accum : Statement .accum := ⟨nofun, nofun⟩
theorem enc : Statement .enc := ⟨nofun, nofun⟩

end Sys2Proof.Laws.EncodingSpace
end

