-- ==== Sys2Proof/Tests/Slice0.lean ====
section
/-! SUPPORT. Tests/Slice0.lean: tests on fixed values, each with the place of spec/ that its expected value comes from, and
one witness for every statement of Certificates/Slice0/Obligations.lean that has hypotheses. -/

namespace Sys2Proof.Machine

/-! ## Small states and readers -/

/-- An open message in which `n` bytes have arrived. -/
def openAt (n : Nat) : State :=
  { State.reset with OPEN := true, H := romHINIT, BP := BitVec.ofNat 6 n, N := BitVec.ofNat 61 n }

/-- A busy state in a phase, with an index and a return phase, and no byte under assembly. -/
def busyIn (p : Phase) (t : BitVec 6) (r : Phase) : State :=
  { openAt 64 with PHASE := p, T := t, RET := r }

def failed : State := { State.reset with ERR := true }

def finished : State := { State.reset with DONE := true, DIGEST := encodeDigest State.reset.H }

/-- A reading of the next state, if there is one. -/
def after {α : Type} (read : State → α) (r : Result) : Option α :=
  match r with
  | .next t => some (read t)
  | .fault _ => none
  | .refused _ => none

/-! ## Well-formedness: what the checks refuse -/

theorem test_wf_stream_refuses_micro_operation : Stream.wf [.start, .round, .final] = false := by decide
theorem test_wf_stream_accepts_commands : Stream.wf [.start, .char 0x100, .final, .rdchr 63] = true := by decide
theorem test_wf_element_refuses_256 : Elem.isByte 256 = false := by decide
theorem test_wf_element_accepts_255 : Elem.isByte 255 = true := by decide
theorem test_wf_message_refuses_wide_element : Message.valid [0x61, 0x100] = false := by decide
theorem test_wf_message_accepts_empty : Message.valid [] = true := by decide
theorem test_wf_onPort_refuses_enc : Instr.onPort .enc = false := by decide
theorem test_wf_countable_empty : Message.countable [] = true := by decide

/-! ## Decoding: words written out from 30_encoding.md R92, R101 and R104 -/

theorem test_decode_nop : decodeTableWord 32 0x00000000 = some .nop := by decide
theorem test_decode_start : decodeTableWord 32 0x10000000 = some .start := by decide
theorem test_decode_char : decodeTableWord 32 0x20FFFFFF = some (.char 0xFFFFFF) := by decide
theorem test_decode_final : decodeTableWord 32 0x30000000 = some .final := by decide
theorem test_decode_rdchr : decodeTableWord 32 0x4000003F = some (.rdchr 63) := by decide
theorem test_decode_rdstat : decodeTableWord 32 0x50000000 = some .rdstat := by decide
theorem test_decode_clear : decodeTableWord 32 0x60000000 = some .clear := by decide
theorem test_decode_pad80 : decodeTableWord 8 1 = some .pad80 := by decide
theorem test_decode_pad00 : decodeTableWord 8 2 = some .pad00 := by decide
theorem test_decode_len : decodeTableWord 8 3 = some .len := by decide
theorem test_decode_load : decodeTableWord 8 4 = some .load := by decide
theorem test_decode_sched : decodeTableWord 8 5 = some .sched := by decide
theorem test_decode_init : decodeTableWord 8 6 = some .init := by decide
theorem test_decode_round : decodeTableWord 8 7 = some .round := by decide
theorem test_decode_accum : decodeTableWord 8 8 = some .accum := by decide
theorem test_decode_enc : decodeTableWord 8 9 = some .enc := by decide

/-- The examples of 44_commands.md R254, and the reasons of 30_encoding.md R97. -/
theorem test_decode_illegal :
    decodeWord 0x70000000 = .error .opReserved ∧ decodeWord 0x21000061 = .error .rsvNonzero ∧
    decodeWord 0x10000001 = .error .argNonzero ∧ decodeWord 0x40000040 = .error .indexTooHigh := by
  refine ⟨?_, ?_, ?_, ?_⟩ <;> decide

/-- The phase codes that select nothing (10_state.md R33). -/
theorem test_decode_phase_illegal :
    decodePhase 0 = .error .phaseRest ∧ decodePhase 10 = .error .phaseUnused ∧ decodePhase 15 = .error .phaseUnused := by
  refine ⟨?_, ?_, ?_⟩ <;> decide

/-! ## One step of every instruction -/

/-- 44_commands.md R252. -/
theorem test_nop : after State.OUT (step (State.reset.withFetchWord 32 0x00000000)) = some [0x00000000] := by decide
/-- 44_commands.md R232, example. -/
theorem test_start : after (fun t => (t.H[0], t.H[7], t.status, t.OUT))
    (step (failed.withFetchWord 32 0x10000000)) = some (0x6a09e667, 0x5be0cd19, 1, [0x00000000]) := by decide
/-- 44_commands.md R235, example: an accepted element. -/
theorem test_char : after (fun t => (t.PK, t.BP, t.N, t.OUT)) (step ((openAt 0).withFetchWord 32 0x20000061)) =
    some (0x61, 1, 1, [0x00000000]) := by decide
/-- 44_commands.md R235, example: a rejected element. -/
theorem test_char_rejected : after (fun t => (t.OPEN, t.ERR, t.N, t.OUT))
    (step ((openAt 0).withFetchWord 32 0x20000100)) = some (false, true, 0, [0x10000000]) := by decide
/-- 44_commands.md R240: no message. -/
theorem test_final_idle : after State.OUT (step (State.reset.withFetchWord 32 0x30000000)) = some [0x20000000] := by
  decide
/-- 44_commands.md R240: an open message goes to PAD80 and is not yet answered. -/
theorem test_final_open : after (fun t => (t.PHASE, t.OUT)) (step ((openAt 3).withFetchWord 32 0x30000000)) =
    some (.PAD80, []) := by decide
/-- 44_commands.md R245, by 43_encoder.md R217: every character of a zero word is "0". -/
theorem test_rdchr : after State.OUT (step (finished.withFetchWord 32 0x4000003F)) = some [0x00000030] := by decide
/-- 44_commands.md R245: no digest. -/
theorem test_rdchr_none : after State.OUT (step (failed.withFetchWord 32 0x40000000)) = some [0x20000000] := by decide
/-- 44_commands.md R247, example. -/
theorem test_rdstat : after State.OUT (step (failed.withFetchWord 32 0x50000000)) = some [0x00000004] := by decide
/-- 44_commands.md R250. -/
theorem test_clear : after (fun t => (t.DONE, t.BP, t.OUT)) (step (finished.withFetchWord 32 0x60000000)) =
    some (false, 0, [0x00000000]) := by decide
/-- 44_commands.md R254, example. -/
theorem test_illegal : after (fun t => (t.ERR, t.OUT)) (step (failed.withFetchWord 32 0x21000061)) =
    some (true, [0x30000000]) := by decide
/-- 41_preprocessor.md R145, example. -/
theorem test_pad80 : after (fun t => (t.BLK[0], t.BP, t.PHASE))
    (step ({ openAt 3 with PK := 0xEE616263 }.withFetchWord 8 1)) = some (0x61626380, 4, .PAD00) := by decide
/-- 41_preprocessor.md R146. -/
theorem test_pad00_found : after (fun t => (t.BP, t.PHASE)) (step ((openAt 56).withFetchWord 8 2)) =
    some (56, .LEN) := by decide
/-- 41_preprocessor.md R146 and 95_test_vectors.md 2.3: the push that fills the block. -/
theorem test_pad00_full : after (fun t => (t.BLK[15], t.BP, t.PHASE, t.RET))
    (step ({ openAt 63 with PK := 0x11223344 }.withFetchWord 8 2)) = some (0x22334400, 0, .LOAD, .PAD00) := by decide
/-- 41_preprocessor.md R147, example. -/
theorem test_len : after (fun t => (t.BLK[14], t.BLK[15], t.BP, t.PHASE, t.RET))
    (step ({ openAt 3 with BP := 56 }.withFetchWord 8 3)) = some (0x00000000, 0x00000018, 0, .LOAD, .ENC) := by decide
/-- 41_preprocessor.md R148: a count that reaches the high word, `N = 2^29 + 1`. -/
theorem test_len_high : after (fun t => (t.BLK[14], t.BLK[15]))
    (step ({ openAt 3 with N := 0x20000001 }.withFetchWord 8 3)) = some (0x00000001, 0x00000008) := by decide

/-- The block of "abc" (41_preprocessor.md R154). -/
def abcBlock : Block := ((Vector.replicate 16 0).set 0 0x61626380).set 15 0x00000018

/-- 42_compression.md R172, example. -/
theorem test_load : after (fun t => (t.W[0], t.W[14], t.W[15], t.T))
    (step ({ busyIn .LOAD 0 .ENC with BLK := abcBlock }.withFetchWord 8 4)) =
      some (0x61626380, 0x00000000, 0x00000018, 16) := by decide
/-- 42_compression.md R174, examples: `W[17]` and `W[18]` of "abc". -/
theorem test_sched : after (fun t => (t.W[17], t.T))
    (step ({ busyIn .SCHED 17 .ENC with W := loadSchedule abcBlock (Vector.replicate 64 0) }.withFetchWord 8 5)) =
      some (0x000f0000, 18) := by decide
theorem test_sched_18 : after (fun t => t.W[18])
    (step ({ busyIn .SCHED 18 .ENC with
      W := (loadSchedule abcBlock (Vector.replicate 64 0)).set 16 0x61626380 }.withFetchWord 8 5)) =
      some 0x7da86405 := by decide
/-- 42_compression.md R175, example. -/
theorem test_init : after (fun t => (t.V[0], t.V[7], t.T, t.PHASE)) (step ((busyIn .INIT 0 .ENC).withFetchWord 8 6)) =
    some (0x6a09e667, 0x5be0cd19, 0, .ROUND) := by decide
/-- 42_compression.md R177, example: round 0 of "abc". -/
theorem test_round : after (fun t => (t.V.toList, t.T))
    (step ({ busyIn .ROUND 0 .ENC with
      V := romHINIT, W := loadSchedule abcBlock (Vector.replicate 64 0) }.withFetchWord 8 7)) =
      some ([0x5d6aebcd, 0x6a09e667, 0xbb67ae85, 0x3c6ef372, 0xfa2a4622, 0x510e527f, 0x9b05688c, 0x1f83d9ab], 1) := by
  decide
/-- 42_compression.md R178, example: ACCUM of "abc". -/
theorem test_accum : after (fun t => ((List.range 8).map fun i => t.H.toList.getD i 0, t.PHASE, t.OUT))
    (step ({ busyIn .ACCUM 0 .ENC with
      V := #v[0x506e3058, 0xd39a2165, 0x04d24d6c, 0xb85e2ce9, 0x5ef50f24, 0xfb121210, 0x948d25b6, 0x961f4894]
      }.withFetchWord 8 8)) =
      some ([0xba7816bf, 0x8f01cfea, 0x414140de, 0x5dae2223, 0xb00361a3, 0x96177a9c, 0xb410ff61, 0xf20015ad], .ENC, []) := by
  decide
/-- 42_compression.md R178: with `RET = REST` the CHAR is answered. -/
theorem test_accum_rest : after (fun t => (t.PHASE, t.OUT)) (step ((busyIn .ACCUM 0 .REST).withFetchWord 8 8)) =
    some (.REST, [0x00000000]) := by decide
/-- 43_encoder.md R214, example. -/
theorem test_enc : after (fun t => ((List.range 9).map fun i => t.DIGEST.toList.getD i 1, t.T))
    (step ({ busyIn .ENC 0 .ENC with H := Vector.replicate 8 0xba7816bf }.withFetchWord 8 9)) =
      some ([0x62, 0x61, 0x37, 0x38, 0x31, 0x36, 0x62, 0x66, 0x00], 1) := by decide
/-- 43_encoder.md R214: the eighth step. -/
theorem test_enc_last : after (fun t => (t.DIGEST[63], t.status, t.PHASE, t.OUT))
    (step ({ busyIn .ENC 7 .ENC with H := Vector.replicate 8 0x0a0b0c0d }.withFetchWord 8 9)) =
      some (0x64, 2, .REST, [0x00000000]) := by decide

/-! ## The functions of CMP on the examples of 42_compression.md R182 to R187 -/

theorem test_sigma0 : sigma0 0x00000001 = 0x02004000 ∧ sigma0 0x80000000 = 0x11002000 := by decide
theorem test_sigma1 : sigma1 0x80000000 = 0x00205000 ∧ sigma1 0x61626380 = 0x7da86405 := by decide
theorem test_bigS0 : bigS0 0x00000001 = 0x40080400 ∧ bigS0 0x6a09e667 = 0xce20b47e := by decide
theorem test_bigS1 : bigS1 0x00000001 = 0x04200080 ∧ bigS1 0x510e527f = 0x3587272b := by decide
theorem test_ch : ch 0xF0F0F0F0 0x12345678 0x9abcdef0 = 0x1a3c5e70 := by decide
theorem test_maj : maj 0x6a09e667 0xbb67ae85 0x3c6ef372 = 0x3a6fe667 := by decide

/-- The check sums of 95_test_vectors.md 2.1 over the two ROMs. -/
theorem test_romHINIT_check_sums :
    romHINIT.toList.foldl (· ^^^ ·) 0 = 0xc62760eb ∧ romHINIT.toList.foldl (· + ·) 0 = 0x6ea8df67 := by decide
theorem test_romK_check_sums :
    romK.toList.foldl (· ^^^ ·) 0 = 0x95c49cf5 ∧ romK.toList.foldl (· + ·) 0 = 0x941d1755 := by
  decide +kernel

/-- The block of the empty message (41_preprocessor.md R153) and of "abc" (R154). -/
theorem test_pad : pad [] = 0x80000000 :: List.replicate 15 0 ∧
    pad [0x61, 0x62, 0x63] = 0x61626380 :: (List.replicate 14 0 ++ [0x00000018]) := by decide

/-- 43_encoder.md R217. -/
theorem test_hex8 : hex8 0x89abcdef = [0x38, 0x39, 0x61, 0x62, 0x63, 0x64, 0x65, 0x66] := by decide

/-! ## Witnesses: the hypotheses of every statement can be met, clause by clause

Each theorem names the statement it is about; a statement without hypotheses on its state or operands needs none. -/

/-- A state that is no reset state and meets the invariant at REST: 63 bytes have arrived. -/
theorem openAt63_inv : (openAt 63).Inv := by
  refine ⟨by decide, fun h => absurd rfl h, rfl, .inl rfl, nofun, nofun, fun _ _ => rfl, nofun, nofun, nofun⟩

/-- A busy state that meets the invariant: the first round of a dispatch caused by a CHAR. -/
theorem busyRound_inv : (busyIn .ROUND 0 .REST).Inv := by
  refine ⟨by decide, fun _ => rfl, trivial, .inl rfl, nofun, fun _ => rfl, fun _ _ => rfl, nofun, nofun, nofun⟩

/-- The eighth encoder step of a message whose first 56 characters are written. -/
def lastEnc : State :=
  { busyIn .ENC 7 .ENC with H := Vector.replicate 8 0, DIGEST := Vector.replicate 64 0x30 }

/-- 95_test_vectors.md, a zero word is "00000000". -/
theorem lastEnc_inv : lastEnc.Inv := by
  refine ⟨by decide, fun _ => rfl, Nat.le_refl 7, .inr (.inr rfl), nofun, fun _ => rfl, ?_, fun _ => rfl, nofun, ?_⟩
  · rintro - (h | ⟨-, h⟩) <;> cases h
  · intro _ k hk _
    rw [encodeDigest_getElem]
    simp [lastEnc, nibbleOf, hexchar]

/-- `NarrowElementWidthReservesUpperBits`, both clauses at the boundary of `CHAR_W = 9`. -/
theorem witness_NarrowElementWidth :
    0x200001FF#32 &&& 0xFF000000#32 = 0x20000000#32 ∧ (0x200001FF#32).toNat % 2 ^ 24 < 2 ^ 9 ∧
    decodeWordFor 9 0x200001FF = .ok (.char 0x1FF) ∧
    0x20000200#32 &&& 0xFF000000#32 = 0x20000000#32 ∧ 2 ^ 9 ≤ (0x20000200#32).toNat % 2 ^ 24 ∧
    decodeWordFor 9 0x20000200 = .error .elementTooWide := by
  refine ⟨?_, ?_, ?_, ?_, ?_, ?_⟩ <;> decide

/-- `StepRunsTheAcceptedCommand`. -/
theorem witness_StepRunsTheAcceptedCommand :
    ({ openAt 63 with IN := [.command 0x20000061, .idle] } : State).PHASE = .REST ∧
    decodeWord 0x20000061 = .ok (.char 0x61) := by decide

/-- `StepRunsTheMicroOperationOfThePhase`: each of the nine phases, and the three kinds of input. -/
theorem witness_StepRunsTheMicroOperationOfThePhase :
    (∀ p ∈ [Phase.PAD80, .PAD00, .LEN, .LOAD, .SCHED, .INIT, .ROUND, .ACCUM, .ENC],
      ({ busyIn p 0 .REST with IN := [.command 0x60000000] } : State).PHASE = p) ∧
    (busyIn .ROUND 0 .REST).IN = [] ∧ ({ busyIn .ROUND 0 .REST with IN := [.idle] } : State).IN = .idle :: [] := by
  refine ⟨?_, rfl, rfl⟩
  decide

/-- `RestWithoutCommandChangesNothing`. -/
theorem witness_RestWithoutCommand :
    State.reset.PHASE = .REST ∧ State.reset.IN = [] ∧
    ({ failed with IN := [.idle, .reset] } : State).IN = .idle :: [.reset] := ⟨rfl, rfl, rfl⟩

/-- `IllegalWordIsAnsweredAndChangesNothing`: RDCHR with index bit 6 set. -/
theorem witness_IllegalWord :
    ({ failed with IN := [.command 0x40000040] } : State).PHASE = .REST ∧
    0x40000040#32 ≠ 0x00000000#32 ∧ 0x40000040#32 ≠ 0x10000000#32 ∧
    0x40000040#32 &&& 0xFF000000#32 ≠ 0x20000000#32 ∧ 0x40000040#32 ≠ 0x30000000#32 ∧
    0x40000040#32 &&& 0xFFFFFFC0#32 ≠ 0x40000000#32 ∧ 0x40000040#32 ≠ 0x50000000#32 ∧
    0x40000040#32 ≠ 0x60000000#32 := by decide

/-- `ResetTakesPriorityInEveryState`: in the middle of a round. -/
theorem witness_ResetTakesPriority :
    ({ busyIn .ROUND 5 .PAD00 with IN := [.reset, .command 0] } : State).IN = .reset :: [.command 0] ∧
    ({ busyIn .ROUND 5 .PAD00 with IN := [.reset, .command 0] } : State).PHASE = .ROUND := ⟨rfl, rfl⟩

/-- `CharFollowsItsChecks`: each branch, the last two at `BP = 62` and 63, the range check at 255 and 256. -/
theorem witness_CharFollowsItsChecks :
    failed.ERR = true ∧
    (State.reset.ERR = false ∧ State.reset.OPEN = false) ∧
    ((openAt 0).ERR = false ∧ (openAt 0).OPEN = true ∧ 255 < (256#24).toNat) ∧
    ((openAt 63).ERR = false ∧ (openAt 63).OPEN = true ∧ ¬ 255 < (255#24).toNat ∧ (openAt 63).BP.toNat = 63) ∧
    ((openAt 62).ERR = false ∧ (openAt 62).OPEN = true ∧ (openAt 62).BP.toNat ≠ 63) := by decide

/-- `FinalFollowsItsChecks`, `RdchrReturnsTheCharacter`, `Pad80PushesTheMarker`, `Pad00FillsWithZeros` and
`AccumAddsTheLanes`: each branch. -/
theorem witness_branches :
    failed.ERR = true ∧ State.reset.OPEN = false ∧ (openAt 5).OPEN = true ∧ finished.DONE = true ∧ failed.DONE = false ∧
    (openAt 63).BP.toNat = 63 ∧ (openAt 62).BP.toNat ≠ 63 ∧ (openAt 56).BP.toNat = 56 ∧ (openAt 55).BP.toNat ≠ 56 ∧
    (busyIn .ACCUM 0 .REST).RET = .REST ∧ (busyIn .ACCUM 0 .PAD00).RET ≠ .REST := by decide

/-- `RdstatReturnsTheStatus`, the clause on the invariant. -/
theorem witness_RdstatReturnsTheStatus : (openAt 63).Inv ∧ (openAt 63).msgState = some .OPEN :=
  ⟨openAt63_inv, rfl⟩

/-- `FourPushesAssembleABigEndianWord`: the last word of a block, where `BP` wraps. -/
theorem witness_FourPushes : (openAt 60).BP.toNat % 4 = 0 ∧ (openAt 60).BP.toNat / 4 < 16 := by decide

/-- `SchedComputesOneWord` and `RoundRotatesTheWorkingVariables`: both ends of the index ranges. -/
theorem witness_index :
    (busyIn .SCHED 16 .REST).T = BitVec.ofNat 6 16 ∧ (busyIn .SCHED 63 .REST).T = BitVec.ofNat 6 63 ∧
    (busyIn .ROUND 0 .REST).T = BitVec.ofNat 6 0 ∧ (busyIn .ROUND 63 .REST).T = BitVec.ofNat 6 63 := by decide

/-- `EncWritesEightCharacters`: the first and the last step. -/
theorem witness_EncWritesEightCharacters :
    (busyIn .ENC 0 .ENC).T = BitVec.ofNat 6 0 ∧ lastEnc.T = BitVec.ofNat 6 7 := by decide

/-- `EquivalentFormsOfTheRoundFunctions`, the last clause. -/
theorem witness_EquivalentForms : rotr 0x00000003 2 = rotr (rotr 0x00000003 1) (2 - 1) := by decide

/-- `PadAppendsMarkerZerosAndLength`: the empty message, and 56 bytes, which need a second block. -/
theorem witness_Pad : ([] : List Byte).length < 2 ^ 61 ∧ (List.replicate 56 0x61#8).length < 2 ^ 61 := by
  simp

/-- `EveryStepKeepsTheInvariant`, `NoStepStopsTheMachine`, `OneResponseWhenTheCommandCompletes`,
`FlagsAreWrittenOnlyAsListed`: a state of the invariant, not the reset state, whose step is a next state. -/
theorem witness_EveryStepKeepsTheInvariant :
    (busyIn .ROUND 0 .REST).Inv ∧ ∃ t, step (busyIn .ROUND 0 .REST) = .next t :=
  ⟨busyRound_inv, _, rfl⟩

/-- The same for the last step of FINAL, which writes the flags and responds. -/
theorem witness_FlagsAreWrittenOnlyAsListed :
    lastEnc.Inv ∧ ∃ t, step lastEnc = .next t ∧ t.DONE = true ∧ t.OUT = [0x00000000] :=
  ⟨lastEnc_inv, _, rfl, rfl, rfl⟩

/-- `RegistersAreWrittenOnlyByTheirOwners`. -/
theorem witness_RegistersAreWrittenOnlyByTheirOwners : ∃ t, exec .len (openAt 56) = .next t := ⟨_, rfl⟩

/-- `SequencerFollowsTheTable`. -/
theorem witness_SequencerFollowsTheTable :
    lastEnc.Inv ∧ lastEnc.PHASE ≠ .REST ∧ ∀ rest, lastEnc.IN ≠ .reset :: rest :=
  ⟨lastEnc_inv, by decide, nofun⟩

/-- `FailureIsStickyUntilStartOrClear`. -/
theorem witness_FailureIsSticky :
    failed.msgState = some .ERR ∧ Instr.onPort (.char 0x61) = true ∧ Instr.char 0x61 ≠ .start ∧
    Instr.char 0x61 ≠ .clear := by decide

/-- `DigestStaysReadableUntilStartOrClear`. -/
theorem witness_DigestStaysReadable : finished.msgState = some .DONE ∧ Instr.onPort .clear = true := by decide

/-- `BlockDispatchCompressesTheBlock`, with and without a waiting command. -/
theorem witness_BlockDispatch :
    (busyIn .LOAD 0 .REST).PHASE = .LOAD ∧ (busyIn .LOAD 0 .REST).IN = ([] : List Word).map .command ∧
    ({ busyIn .LOAD 0 .ENC with IN := [.command 7] } : State).IN = [7].map .command := ⟨rfl, rfl, rfl⟩

/-- `EightEncoderStepsEncodeTheHashState`. -/
theorem witness_EightEncoderSteps :
    (busyIn .ENC 0 .ENC).PHASE = .ENC ∧ (busyIn .ENC 0 .ENC).T = 0 ∧
    (busyIn .ENC 0 .ENC).IN = ([] : List Word).map .command := ⟨rfl, rfl, rfl⟩

/-- `openAt 63` with one command word offered. -/
def offered (w : Word) : State := { openAt 63 with IN := [.command w] }

theorem offered_inv (w : Word) : (offered w).Inv := by
  refine ⟨Option.some_ne_none MsgState.OPEN, fun h => absurd rfl h, rfl, .inl rfl, nofun, nofun, fun _ _ => rfl, nofun, nofun, nofun⟩

/-- `EveryCommandCompletesWithOneResponse` and `CommandIsBusyUntilItsLastMicroStep`: FINAL after 63 bytes (two dispatches),
the element that fills the block, and an illegal word. -/
theorem witness_EveryCommandCompletes :
    (offered 0x30000000).Inv ∧ (offered 0x30000000).PHASE = .REST ∧ (offered 0x30000000).msgState = some .OPEN ∧
    (offered 0x30000000).IN = .command 0x30000000 :: ([] : List Word).map .command ∧
    microSteps (offered 0x30000000) 0x30000000 = 297 ∧ microSteps (offered 0x200000FF) 0x200000FF = 115 ∧
    microSteps (offered 0x70000000) 0x70000000 = 0 := by
  refine ⟨offered_inv _, rfl, rfl, rfl, ?_, ?_, ?_⟩ <;> decide

/-- `CommandIsBusyUntilItsLastMicroStep`: the step after the acceptance. -/
theorem witness_CommandIsBusy :
    1 < 1 + microSteps (offered 0x30000000) 0x30000000 ∧
    ∃ t, Sys2Proof.core.run 1 (offered 0x30000000) = .next t ∧ t.cmdReady = false := by
  refine ⟨by decide, _, rfl, rfl⟩

/-- `HiddenStateTracksTheMessage`: the message of no bytes. -/
theorem witness_HiddenStateTracks :
    ({ openAt 0 with IN := [.command (0x20000000#32 ||| (255#24).setWidth 32)] } : State).Tracks [] := by
  refine ⟨rfl, rfl, rfl, rfl, rfl, ?_, ?_⟩ <;> intro q h
  · intro hq; simp at hq
  · simp at h

/-- `CommandsRealiseHashOfAValidMessage`: the message of one byte, from the ERR state. -/
theorem witness_CommandsRealiseHash :
    ({ failed with IN := (portWords (Pseudo.msgx [0xFF] ++ Pseudo.rddig)).map .command } : State).PHASE = .REST ∧
    [0xFF#24].length < 2 ^ 61 ∧ ∀ c ∈ [0xFF#24], c.toNat ≤ 255 := ⟨rfl, by simp, by simp⟩

/-- `CommandsRejectAnInvalidMessage`. -/
theorem witness_CommandsReject :
    ({ failed with IN := (portWords (Pseudo.msgx ([0xFF] ++ 0x100 :: [0x61]) ++ Pseudo.rddig)).map .command } : State).PHASE =
      .REST ∧ (∀ x ∈ [0xFF#24], x.toNat ≤ 255) ∧ 255 < (0x100#24).toNat := ⟨rfl, by simp, by decide⟩

/-- `UnspecifiedContentsAreNeverObservable`: two states that differ in data registers. -/
theorem witness_UnspecifiedContents :
    State.reset.SameControl { State.reset with H := Vector.replicate 8 1, PK := 0xFFFFFFFF } ∧
    State.reset.PHASE = .REST ∧ State.reset.msgState = some .IDLE ∧ State.reset.PK ≠ 0xFFFFFFFF := by
  refine ⟨⟨rfl, rfl, rfl, rfl, rfl, rfl, rfl, rfl, rfl, rfl, rfl⟩, rfl, rfl, by decide⟩

end Sys2Proof.Machine
end

/-! PROOFS. What an instruction does to the state, said once as a relation, and the invariant of the machine. -/

namespace Sys2Proof.Machine

/-! ### The phase of an instruction, and everything an instruction can do -/

/-- The phase in which an instruction fires (10_state.md R37, 30_encoding.md R101): a command at REST, a
micro-operation in its own phase. -/
def phaseOf : Instr → Phase
  | .nop | .start | .char _ | .final | .rdchr _ | .rdstat | .clear => .REST
  | .pad80 => .PAD80
  | .pad00 => .PAD00
  | .len => .LEN
  | .load => .LOAD
  | .sched => .SCHED
  | .init => .INIT
  | .round => .ROUND
  | .accum => .ACCUM
  | .enc => .ENC

theorem phaseOf_onPort {i : Instr} (h : i.onPort = true) : phaseOf i = .REST := by
  cases i <;> simp [Instr.onPort, phaseOf] at h ⊢

theorem phaseOf_microOp {p : Phase} {i : Instr} (h : p.microOp = .ok i) : p = phaseOf i := by
  cases p <;> cases h <;> rfl

/-- `Effect s i t`: the instruction `i` can turn the state `s` into `t`. One constructor per branch of a meaning, with
the condition under which the branch is taken. -/
inductive Effect (s : State) : Instr → State → Prop
  | nop : Effect s .nop (respond .OK 0 s)
  | start : Effect s .start (respond .OK 0 (flagsOpened (restartMessage { s with H := romHINIT })))
  | charFailed (c : Elem) (he : s.ERR = true) : Effect s (.char c) (respond .INVALID_INPUT 0 s)
  | charClosed (c : Elem) (he : s.ERR = false) (ho : s.OPEN = false) : Effect s (.char c) (respond .SEQ 0 s)
  | charRejected (c : Elem) (he : s.ERR = false) (ho : s.OPEN = true) (hc : 255 < c.toNat) :
      Effect s (.char c) (raiseInvalidInput s)
  | charFull (c : Elem) (he : s.ERR = false) (ho : s.OPEN = true) (hc : c.toNat ≤ 255) (hb : s.BP.toNat = 63) :
      Effect s (.char c) (dispatch .REST (acceptByte (elemByte c) s))
  | charPushed (c : Elem) (he : s.ERR = false) (ho : s.OPEN = true) (hc : c.toNat ≤ 255) (hb : s.BP.toNat ≠ 63) :
      Effect s (.char c) (respond .OK 0 (acceptByte (elemByte c) s))
  | finalFailed (he : s.ERR = true) : Effect s .final (respond .INVALID_INPUT 0 s)
  | finalClosed (he : s.ERR = false) (ho : s.OPEN = false) : Effect s .final (respond .SEQ 0 s)
  | finalOpen (he : s.ERR = false) (ho : s.OPEN = true) : Effect s .final (goto .PAD80 s)
  | rdchrDone (n : BitVec 6) (hd : s.DONE = true) :
      Effect s (.rdchr n) (respond .OK ((readDigest s.DIGEST n).setWidth 28) s)
  | rdchrNone (n : BitVec 6) (hd : s.DONE = false) : Effect s (.rdchr n) (respond .SEQ 0 s)
  | rdstat : Effect s .rdstat (respond .OK s.status s)
  | clear : Effect s .clear (respond .OK 0 (restartMessage (flagsCleared s)))
  | pad80Full (hb : s.BP.toNat = 63) : Effect s .pad80 (dispatch .PAD00 (push 0x80 s))
  | pad80Pushed (hb : s.BP.toNat ≠ 63) : Effect s .pad80 (goto .PAD00 (push 0x80 s))
  | pad00Found (hb : s.BP.toNat = 56) : Effect s .pad00 (goto .LEN s)
  | pad00Full (hb : s.BP.toNat = 63) : Effect s .pad00 (dispatch .PAD00 (push 0x00 s))
  | pad00Pushed (hb : s.BP.toNat ≠ 56) (hb' : s.BP.toNat ≠ 63) : Effect s .pad00 (goto .PAD00 (push 0x00 s))
  | len : Effect s .len (dispatch .ENC
      { s with BLK := (s.BLK.set 14 (lengthHigh s.N)).set 15 (lengthLow s.N), BP := 0 })
  | load : Effect s .load (goto .SCHED { s with W := loadSchedule s.BLK s.W, T := 16 })
  | schedLast (hT : s.T.toNat = 63) : Effect s .sched (goto .INIT { s with W := schedStep s, T := 0 })
  | schedMore (hT : 16 ≤ s.T.toNat) (hT' : s.T.toNat < 63) : Effect s .sched { s with W := schedStep s, T := s.T + 1 }
  | init : Effect s .init (goto .ROUND { s with V := s.H, T := 0 })
  | roundLast (hT : s.T.toNat = 63) : Effect s .round (goto .ACCUM { s with V := roundStep s, T := 0 })
  | roundMore (hT : s.T.toNat < 63) : Effect s .round { s with V := roundStep s, T := s.T + 1 }
  | accumRest (hr : s.RET = .REST) : Effect s .accum (respond .OK 0 (goto .REST { s with H := addLanes s.H s.V }))
  | accumOther (hr : s.RET ≠ .REST) : Effect s .accum (goto s.RET { s with H := addLanes s.H s.V })
  | encLast (d : Digest) (hT : s.T.toNat = 7) (hd : d = encStep s (by omega)) :
      Effect s .enc (respond .OK 0 (goto .REST (flagsDone { s with DIGEST := d, T := 0 })))
  | encMore (d : Digest) (hT : s.T.toNat < 7) (hd : d = encStep s (by omega)) :
      Effect s .enc { s with DIGEST := d, T := s.T + 1 }

/-- Every branch is a branch of the meaning. -/
theorem Effect.exec_eq {s t : State} {i : Instr} (h : Effect s i t) : exec i s = .next t := by
  cases h with
  | nop => rfl
  | start => rfl
  | charFailed c he => exact execChar_failed c he
  | charClosed c he ho => exact execChar_closed c he ho
  | charRejected c he ho hc => exact execChar_rejected c he ho hc
  | charFull c he ho hc hb => exact execChar_full c he ho hc hb
  | charPushed c he ho hc hb => exact execChar_pushed c he ho hc hb
  | finalFailed he => exact execFinal_failed he
  | finalClosed he ho => exact execFinal_closed he ho
  | finalOpen he ho => exact execFinal_open he ho
  | rdchrDone n hd => exact execRdchr_done n hd
  | rdchrNone n hd => exact execRdchr_none n hd
  | rdstat => rfl
  | clear => rfl
  | pad80Full hb => exact execPad80_full hb
  | pad80Pushed hb => exact execPad80_pushed hb
  | pad00Found hb => exact execPad00_found hb
  | pad00Full hb => exact execPad00_full hb
  | pad00Pushed hb hb' => exact execPad00_pushed hb hb'
  | len => exact execLen_next s
  | load => exact execLoad_next s
  | schedLast hT => exact execSched_last hT
  | schedMore hT hT' => exact execSched_more hT hT'
  | init => exact execInit_next s
  | roundLast hT => exact execRound_last hT
  | roundMore hT => exact execRound_more hT
  | accumRest hr => exact execAccum_rest hr
  | accumOther hr => exact execAccum_other hr
  | encLast d hT hd =>
    subst hd
    show execEnc s = _
    rw [execEnc_last hT]
    simp only [respond, goto, flagsDone]
  | encMore d hT hd =>
    subst hd
    exact execEnc_more hT

/-- The index condition without which an instruction faults (20_memory.md R74). -/
def indexInRange (s : State) (i : Instr) : Prop :=
  (i = .sched → 16 ≤ s.T.toNat) ∧ (i = .enc → s.T.toNat < 8)

/-- The branches of each meaning cover every state, but for the index faults. -/
theorem exists_effect (s : State) (i : Instr) (hi : indexInRange s i) : ∃ t, Effect s i t := by
  obtain ⟨hsched, henc⟩ := hi
  have h63 := s.T.isLt
  cases i with
  | nop => exact ⟨_, .nop⟩
  | start => exact ⟨_, .start⟩
  | char c =>
    cases he : s.ERR with
    | true => exact ⟨_, .charFailed c he⟩
    | false =>
      cases ho : s.OPEN with
      | false => exact ⟨_, .charClosed c he ho⟩
      | true =>
        by_cases hc : 255 < c.toNat
        · exact ⟨_, .charRejected c he ho hc⟩
        · by_cases hb : s.BP.toNat = 63
          · exact ⟨_, .charFull c he ho (by omega) hb⟩
          · exact ⟨_, .charPushed c he ho (by omega) hb⟩
  | final =>
    cases he : s.ERR with
    | true => exact ⟨_, .finalFailed he⟩
    | false =>
      cases ho : s.OPEN with
      | false => exact ⟨_, .finalClosed he ho⟩
      | true => exact ⟨_, .finalOpen he ho⟩
  | rdchr n =>
    cases hd : s.DONE with
    | true => exact ⟨_, .rdchrDone n hd⟩
    | false => exact ⟨_, .rdchrNone n hd⟩
  | rdstat => exact ⟨_, .rdstat⟩
  | clear => exact ⟨_, .clear⟩
  | pad80 =>
    by_cases hb : s.BP.toNat = 63
    · exact ⟨_, .pad80Full hb⟩
    · exact ⟨_, .pad80Pushed hb⟩
  | pad00 =>
    by_cases hb : s.BP.toNat = 56
    · exact ⟨_, .pad00Found hb⟩
    · by_cases hb' : s.BP.toNat = 63
      · exact ⟨_, .pad00Full hb'⟩
      · exact ⟨_, .pad00Pushed hb hb'⟩
  | len => exact ⟨_, .len⟩
  | load => exact ⟨_, .load⟩
  | sched =>
    by_cases hT : s.T.toNat = 63
    · exact ⟨_, .schedLast hT⟩
    · exact ⟨_, .schedMore (hsched rfl) (by omega)⟩
  | init => exact ⟨_, .init⟩
  | round =>
    by_cases hT : s.T.toNat = 63
    · exact ⟨_, .roundLast hT⟩
    · exact ⟨_, .roundMore (by omega)⟩
  | accum =>
    by_cases hr : s.RET = .REST
    · exact ⟨_, .accumRest hr⟩
    · exact ⟨_, .accumOther hr⟩
  | enc =>
    have hlt := henc rfl
    by_cases hT : s.T.toNat = 7
    · exact ⟨_, .encLast _ hT rfl⟩
    · exact ⟨_, .encMore _ (by omega) rfl⟩

/-- Inversion of a meaning: its next state is one of the branches. -/
theorem effect_of_exec {s t : State} {i : Instr} (h : exec i s = .next t) : Effect s i t := by
  have hi : indexInRange s i := by
    constructor <;> rintro rfl <;> by_contra hT
    · exact nomatch (execSched_outside (by omega)).symm.trans h
    · exact nomatch (execEnc_outside (by omega)).symm.trans h
  obtain ⟨u, hu⟩ := exists_effect s i hi
  obtain rfl : t = u := by injection h.symm.trans hu.exec_eq
  exact hu

/-! ### The step through its effects -/

theorem exists_microOp {p : Phase} (hp : p ≠ .REST) : ∃ i, p.microOp = .ok i ∧ i.onPort = false := by
  cases p with
  | REST => exact absurd rfl hp
  | _ => exact ⟨_, rfl, rfl⟩

/-- What the sequencer runs, it runs in its phase. -/
theorem phaseOf_nextStep {s : State} {i : Instr} (h : nextStep s = .run i) : s.PHASE = phaseOf i := by
  have hseq : sequencerStep s = .run i := by
    unfold nextStep at h
    split at h
    · cases h
    · exact h
  unfold sequencerStep at hseq
  split at hseq
  case h_1 j _ hj => cases hseq; exact phaseOf_microOp hj
  case h_2 e w rest he hin =>
    have hp : s.PHASE = .REST := by
      by_contra hp
      obtain ⟨j, hj, -⟩ := exists_microOp hp
      rw [hj] at he
      cases he
    unfold wordStep at hseq
    split at hseq
    case h_1 j hj => cases hseq; exact hp.trans (phaseOf_onPort (decodeWord_onPort _ _ hj)).symm
    case h_2 => cases hseq
  case h_3 => cases hseq

theorem consumeInput_accepted {s : State} {w : Word} {rest : List HostInput} (hp : s.PHASE = .REST)
    (h : s.IN = .command w :: rest) : consumeInput s = { s with IN := rest } := by
  rw [consumeInput, inputAfter_accepted s w rest hp h]

/-- Inversion of a step: every kind of step, the input taken first. -/
theorem step_effect {s t : State} (h : step s = .next t) :
    (nextStep s = .reset ∧ t = takeReset (consumeInput s)) ∨
    (nextStep s = .rest ∧ s.PHASE = .REST ∧ t = consumeInput s) ∨
    (nextStep s = .illegal ∧ s.PHASE = .REST ∧ t = answerIllegal (consumeInput s)) ∨
    ∃ i, nextStep s = .run i ∧ s.PHASE = phaseOf i ∧ Effect (consumeInput s) i t := by
  obtain ⟨hn, rest, hin, rfl⟩ | ⟨hn, hp, rfl⟩ | ⟨hn, hp, w, rest, e, hin, -, rfl⟩ |
    ⟨hp, w, rest, i, hin, -, hport, hn, he⟩ | ⟨i, hi, -, hn, he⟩ := step_cases s t h
  · exact .inl ⟨hn, by rw [consumeInput, inputAfter_reset s rest hin]⟩
  · exact .inr (.inl ⟨hn, hp, rfl⟩)
  · exact .inr (.inr (.inl ⟨hn, hp, by rw [consumeInput_accepted hp hin]⟩))
  · rw [← consumeInput_accepted hp hin] at he
    exact .inr (.inr (.inr ⟨i, hn, hp.trans (phaseOf_onPort hport).symm, effect_of_exec he⟩))
  · exact .inr (.inr (.inr ⟨i, hn, phaseOf_microOp hi, effect_of_exec he⟩))

end Sys2Proof.Machine

/-! PROOFS. The invariant of the machine, kept by every step. -/

namespace Sys2Proof.Machine

/-! ### The parts of the invariant -/

/-- The values `RET` takes (10_state.md R35). -/
def returnLegal (p : Phase) : Prop := p = .REST ∨ p = .PAD00 ∨ p = .ENC

/-- The flags of an open message (10_state.md R30). -/
def flagsOpen (s : State) : Prop := s.OPEN = true ∧ s.DONE = false ∧ s.ERR = false

theorem msgState_eq_open (s : State) : s.msgState = some .OPEN ↔ flagsOpen s := msgState_eq_some s .OPEN

/-- The invariant does not speak of the ports and the counter of free values. -/
theorem State.Inv.of_ports {s : State} (h : s.Inv) (inp : List HostInput) (out : List Word) :
    State.Inv { s with IN := inp, OUT := out } :=
  ⟨h.oneFlag, h.busyOpen, h.index, h.returnPhase, h.lengthPointer, h.blockPointer, h.countPointer, h.encReturn,
    h.digestWhole, h.digestPart⟩

theorem State.Inv.consumeInput {s : State} (h : s.Inv) : (consumeInput s).Inv := h.of_ports _ _

theorem State.Inv.respond {s : State} (h : s.Inv) (rc : Rc) (data : BitVec 28) : (respond rc data s).Inv :=
  h.of_ports _ _

/-- In an open message at most the flag `OPEN` is 1 (10_state.md R30). -/
theorem State.Inv.opened {s : State} (h : s.Inv) (ho : s.OPEN = true) : flagsOpen s := by
  have h1 := h.oneFlag
  unfold State.msgState at h1
  cases hd : s.DONE <;> cases he : s.ERR <;> simp [flagsOpen, ho, hd, he] at h1 ⊢

/-- What the invariant asks of a state at REST. -/
theorem inv_of_rest {s : State} (hp : s.PHASE = .REST) (hf : s.msgState ≠ none) (hT : s.T = 0)
    (hr : returnLegal s.RET) (hc : s.OPEN = true → s.BP.toNat = s.N.toNat % 64)
    (hd : s.DONE = true → s.DIGEST = encodeDigest s.H) : s.Inv where
  oneFlag := hf
  busyOpen h := absurd hp h
  index := by rw [hp]; exact hT
  returnPhase := hr
  lengthPointer h := by simp [hp] at h
  blockPointer h := by simp [hp, afterBlock] at h
  countPointer ho _ := hc ho
  encReturn h := by simp [hp] at h
  digestWhole := hd
  digestPart h := by simp [hp] at h

/-- What it asks of a busy state outside the encoder. -/
theorem inv_of_busy {s : State} (ho : flagsOpen s) (hp : s.PHASE ≠ .REST) (he : s.PHASE ≠ .ENC)
    (hT : indexLegal s.PHASE s.T) (hr : returnLegal s.RET) (hl : s.PHASE = .LEN → s.BP = 56)
    (hb : afterBlock s.PHASE = true → s.BP = 0)
    (hc : afterBlock s.PHASE = true → s.RET = .REST → s.BP.toNat = s.N.toNat % 64) : s.Inv where
  oneFlag := by simp [(msgState_eq_open s).2 ho]
  busyOpen _ := (msgState_eq_open s).2 ho
  index := hT
  returnPhase := hr
  lengthPointer := hl
  blockPointer := hb
  countPointer _ h := h.elim (absurd · hp) fun h => hc h.1 h.2
  encReturn h := absurd h he
  digestWhole h := by simp [ho.2.1] at h
  digestPart h := absurd h he

/-- What it asks of a state in the encoder. -/
theorem inv_of_enc {s : State} (ho : flagsOpen s) (hp : s.PHASE = .ENC) (hT : s.T.toNat ≤ 7)
    (hr : s.RET = .ENC) (hb : s.BP = 0)
    (hd : ∀ k : Nat, ∀ h : k < 64, k < 8 * s.T.toNat → s.DIGEST[k] = (encodeDigest s.H)[k]) : s.Inv where
  oneFlag := by simp [(msgState_eq_open s).2 ho]
  busyOpen _ := (msgState_eq_open s).2 ho
  index := by rw [hp]; exact hT
  returnPhase := .inr (.inr hr)
  lengthPointer h := by simp [hp] at h
  blockPointer _ := hb
  countPointer _ h := by simp [hp, hr] at h
  encReturn _ := hr
  digestWhole h := by simp [ho.2.1] at h
  digestPart _ := hd

/-! ### What it says in each phase -/

/-- The phases whose index is 0 (10_state.md R34). -/
def indexFixed : Phase → Bool
  | .SCHED | .ROUND | .ENC => false
  | .REST | .PAD80 | .PAD00 | .LEN | .LOAD | .INIT | .ACCUM => true

theorem State.Inv.index_zero {s : State} {p : Phase} (h : s.Inv) (hp : s.PHASE = p) (hf : indexFixed p = true) :
    s.T = 0 := by
  have hi := h.index
  rw [hp] at hi
  cases p with
  | SCHED | ROUND | ENC => cases hf
  | _ => exact hi

/-- A busy machine has an open message. -/
theorem State.Inv.busy {s : State} {p : Phase} (h : s.Inv) (hp : s.PHASE = p) (hb : p ≠ .REST) :
    flagsOpen s := (msgState_eq_open s).1 (h.busyOpen (hp ▸ hb))

theorem State.Inv.index_sched {s : State} (h : s.Inv) (hp : s.PHASE = .SCHED) : 16 ≤ s.T.toNat := by
  have hi := h.index
  rwa [hp] at hi

theorem State.Inv.index_enc {s : State} (h : s.Inv) (hp : s.PHASE = .ENC) : s.T.toNat ≤ 7 := by
  have hi := h.index
  rwa [hp] at hi

/-- No instruction of a state of the invariant faults in its phase (20_memory.md R74). -/
theorem State.Inv.indexInRange {s : State} (h : s.Inv) {i : Instr} (hp : s.PHASE = phaseOf i) : indexInRange s i := by
  constructor <;> rintro rfl
  · exact h.index_sched hp
  · exact Nat.lt_succ_of_le (h.index_enc hp)

/-! ### The steps inside a block dispatch -/

/-- A micro-operation of CMP that stays inside the dispatch keeps the invariant: it moves to another phase of the
dispatch with a legal index, and writes only `V`, `W`, `T` and `PHASE`. -/
theorem State.Inv.inside_dispatch {s : State} {q : Phase} (h : s.Inv) (hq : s.PHASE = q) (hb : afterBlock q = true)
    (p : Phase) (t : BitVec 6) (v : Words8) (w : Schedule) (hp : afterBlock p = true) (he : p ≠ .ENC)
    (hT : indexLegal p t) : State.Inv { s with V := v, W := w, T := t, PHASE := p } := by
  subst hq
  have hbusy : ∀ p, afterBlock p = true → p ≠ .REST ∧ p ≠ .LEN := by
    intro p hp
    constructor <;> rintro rfl <;> cases hp
  have ho := h.busy rfl (hbusy _ hb).1
  exact inv_of_busy ho (hbusy p hp).1 he hT h.returnPhase (absurd · (hbusy p hp).2) (fun _ => h.blockPointer hb)
    fun _ hr => h.countPointer ho.1 (.inr ⟨hb, hr⟩)

/-- The last micro-operation of a dispatch continues in the phase `RET` (42_compression.md R178). -/
theorem State.Inv.leave_dispatch {s : State} (h : s.Inv) (hp : s.PHASE = .ACCUM) (w : Words8) :
    State.Inv { s with H := w, PHASE := s.RET } := by
  have ho := h.busy hp nofun
  have hT := h.index_zero hp rfl
  have hb : afterBlock s.PHASE = true := by rw [hp]; rfl
  rcases h.returnPhase with hr | hr | hr
  · refine inv_of_rest hr h.oneFlag hT h.returnPhase (fun h1 => h.countPointer h1 (.inr ⟨hb, hr⟩)) fun hd => ?_
    simp [ho.2.1] at hd
  · refine inv_of_busy ho ?_ ?_ ?_ h.returnPhase ?_ ?_ ?_ <;> simp [hr, indexLegal, hT, afterBlock]
  · refine inv_of_enc ho hr ?_ hr (h.blockPointer hb) fun k _ hk => ?_
    · simp [hT]
    · simp [hT] at hk

/-- A dispatch keeps the invariant: the block is complete, so `BP` is 0 (41_preprocessor.md R143, R147). -/
theorem inv_dispatch {s : State} {r : Phase} (ho : flagsOpen s) (hT : s.T = 0) (hr : returnLegal r)
    (hb : s.BP = 0) (hc : r = .REST → s.BP.toNat = s.N.toNat % 64) : (dispatch r s).Inv :=
  inv_of_busy ho (by simp) (by simp) hT hr (by simp) (fun _ => hb) fun _ h => hc h

theorem push_BP_full {s : State} (b : Byte) (hb : s.BP.toNat = 63) : (push b s).BP = 0 := by
  apply BitVec.eq_of_toNat_eq
  rw [(push_pushed b s).pointer, hb]
  rfl

/-- An accepted byte keeps `BP = N mod 64` (10_state.md R40). -/
theorem acceptByte_countPointer {s : State} (b : Byte) (h : s.BP.toNat = s.N.toNat % 64) :
    (acceptByte b s).BP.toNat = (acceptByte b s).N.toNat % 64 := by
  rw [(acceptByte_pushed b s).pointer, acceptByte_N_toNat]
  omega

/-! ### The encoder -/

/-- An encoder step extends the part of the digest that is written (43_encoder.md R214). -/
theorem encStep_written {s : State} (hT : s.T.toNat < 8)
    (hd : ∀ k : Nat, ∀ h : k < 64, k < 8 * s.T.toNat → s.DIGEST[k] = (encodeDigest s.H)[k]) (k : Nat) (h : k < 64)
    (hk : k < 8 * (s.T.toNat + 1)) : (encStep s hT)[k] = (encodeDigest s.H)[k] := by
  unfold encStep
  by_cases hn : k / 8 = s.T.toNat
  · rw [writeHex_in _ _ _ _ _ hn, encodeDigest_getElem]
    simp only [hn]
  · rw [writeHex_out _ _ _ _ _ hn]
    exact hd k h (by omega)

theorem T_succ_toNat {s : State} (h : s.T.toNat < 63) : (s.T + 1).toNat = s.T.toNat + 1 := by
  bv_omega

/-- The encoder goes on to the next word of the Hash State when the characters of this one are written. -/
theorem State.Inv.encMore {s : State} (h : s.Inv) (hp : s.PHASE = .ENC) (hT : s.T.toNat < 7) (d : Digest)
    (hd : ∀ k : Nat, ∀ h : k < 64, k < 8 * (s.T.toNat + 1) → d[k] = (encodeDigest s.H)[k]) :
    State.Inv { s with DIGEST := d, T := s.T + 1 } := by
  have hT1 := T_succ_toNat (s := s) (by omega)
  refine inv_of_enc (h.busy hp nofun) hp (by simp only [hT1]; omega) (h.encReturn hp)
    (h.blockPointer (by rw [hp]; rfl)) fun k hk hlt => hd k hk ?_
  simpa only [hT1] using hlt

/-- The eighth step completes the digest. -/
theorem State.Inv.encLast {s : State} (h : s.Inv) (hp : s.PHASE = .ENC) (d : Digest) (hd : d = encodeDigest s.H) :
    (goto .REST (flagsDone { s with DIGEST := d, T := 0 })).Inv := by
  obtain ⟨-, -, hf⟩ := h.busy hp nofun
  refine inv_of_rest rfl ?_ rfl h.returnPhase nofun fun _ => hd
  simp [State.msgState, hf]

/-! ### The invariant is kept -/

theorem State.Inv.reset (s : State) : (takeReset s).Inv :=
  inv_of_rest rfl (Option.some_ne_none MsgState.IDLE) rfl (.inl rfl) nofun nofun

/-- Every instruction keeps the invariant in its phase. -/
theorem State.Inv.effect {s t : State} {i : Instr} (h : s.Inv) (hp : s.PHASE = phaseOf i) (he : Effect s i t) :
    t.Inv := by
  have hr := h.returnPhase
  cases he with
  | nop | rdstat | charFailed | charClosed | finalFailed | finalClosed | rdchrDone | rdchrNone => exact h.respond _ _
  | start => exact inv_of_rest hp (Option.some_ne_none MsgState.OPEN) (h.index_zero hp rfl) hr (fun _ => rfl) nofun
  | clear => exact inv_of_rest hp (Option.some_ne_none MsgState.IDLE) (h.index_zero hp rfl) hr nofun nofun
  | charRejected c he ho hc =>
    obtain ⟨-, hd, -⟩ := h.opened ho
    refine inv_of_rest hp ?_ (h.index_zero hp rfl) hr nofun fun hd' => ?_
    · simp [State.msgState, hd]
    · simp [hd] at hd'
  | charFull c he ho hc hb =>
    exact inv_dispatch (h.opened ho) (h.index_zero hp rfl) (.inl rfl) (push_BP_full (elemByte c) hb) fun _ =>
      acceptByte_countPointer (elemByte c) (h.countPointer ho (.inl hp))
  | charPushed c he ho hc hb =>
    obtain ⟨-, hd, -⟩ := h.opened ho
    refine inv_of_rest hp h.oneFlag (h.index_zero hp rfl) hr
      (fun _ => acceptByte_countPointer (elemByte c) (h.countPointer ho (.inl hp))) fun hd' => ?_
    simp [hd] at hd'
  | finalOpen he ho => exact inv_of_busy (h.opened ho) nofun nofun (h.index_zero hp rfl) hr nofun nofun nofun
  | pad80Full hb | pad00Full hb =>
    exact inv_dispatch (h.busy hp nofun) (h.index_zero hp rfl) (.inr (.inl rfl)) (push_BP_full _ hb) nofun
  | pad80Pushed | pad00Pushed =>
    exact inv_of_busy (h.busy hp nofun) nofun nofun (h.index_zero hp rfl) hr nofun nofun nofun
  | pad00Found hb =>
    exact inv_of_busy (h.busy hp nofun) nofun nofun (h.index_zero hp rfl) hr (fun _ => (BP_eq_56 s).2 hb) nofun nofun
  | len =>
    exact inv_dispatch (s := { s with BLK := _, BP := 0 }) (h.busy hp nofun) (h.index_zero hp rfl) (.inr (.inr rfl)) rfl
      nofun
  | load => exact h.inside_dispatch hp rfl .SCHED 16 s.V _ rfl nofun (by decide : 16 ≤ (16#6).toNat)
  | schedLast => exact h.inside_dispatch hp rfl .INIT 0 s.V _ rfl nofun rfl
  | schedMore hT hT' =>
    have hT1 : 16 ≤ (s.T + 1).toNat := by rw [T_succ_toNat hT']; omega
    have h' := h.inside_dispatch hp rfl .SCHED (s.T + 1) s.V (schedStep s) rfl nofun hT1
    rwa [← show s.PHASE = .SCHED from hp] at h'
  | init => exact h.inside_dispatch hp rfl .ROUND 0 _ s.W rfl nofun trivial
  | roundLast => exact h.inside_dispatch hp rfl .ACCUM 0 _ s.W rfl nofun rfl
  | roundMore hT =>
    have h' := h.inside_dispatch hp rfl .ROUND (s.T + 1) (roundStep s) s.W rfl nofun trivial
    rwa [← show s.PHASE = .ROUND from hp] at h'
  | accumRest hrest =>
    rw [← hrest]
    exact (h.leave_dispatch hp _).respond _ _
  | accumOther => exact h.leave_dispatch hp _
  | encLast d hT hd =>
    refine (h.encLast hp d ?_).respond _ _
    rw [hd]
    exact Vector.ext fun k hk => encStep_written (by omega) (h.digestPart hp) k hk (by omega)
  | encMore d hT hd =>
    refine h.encMore hp hT d fun k hk hlt => ?_
    simp only [hd]
    exact encStep_written (by omega) (h.digestPart hp) k hk hlt

/-- Settles O36: reset and rest are immediate, an illegal word changes no register, and an instruction keeps the
invariant in its phase (`State.Inv.effect`). -/
theorem everyStepKeepsTheInvariant : Obligations.EveryStepKeepsTheInvariant := by
  intro s t hs h
  obtain ⟨-, rfl⟩ | ⟨-, -, rfl⟩ | ⟨-, -, rfl⟩ | ⟨i, -, hp, he⟩ := step_effect h
  · exact .reset _
  · exact hs.consumeInput
  · exact hs.consumeInput.respond _ _
  · exact hs.consumeInput.effect hp he

end Sys2Proof.Machine

/-! PROOFS. Reset, rest, flags, responses and the sequencer. -/

namespace Sys2Proof.Machine

/-! ### Rest and reset -/

/-- Settles O7: the two cases of a step of rest. -/
theorem restWithoutCommandChangesNothing : Obligations.RestWithoutCommandChangesNothing :=
  fun s hp => ⟨step_rest_nil s hp, fun rest => step_rest_idle s rest hp⟩

/-- Settles O10: every value is a field of the reset state. -/
theorem resetStateControlValues : Obligations.ResetStateControlValues := by
  unfold Obligations.ResetStateControlValues
  decide

/-- Settles O35: the reset state is at REST with no flag set. -/
theorem resetMeetsTheInvariant : Obligations.ResetMeetsTheInvariant :=
  inv_of_rest rfl (Option.some_ne_none MsgState.IDLE) rfl (.inl rfl) nofun nofun

/-! ### The flags (10_state.md R31) -/

/-- The only instructions that write a flag, in every state; the exception and the last encoder step leave the third
flag as it is (60_exceptions.md R272, 43_encoder.md R214; log 13). -/
theorem Effect.flags {s t : State} {i : Instr} (h : Effect s i t) :
    (t.OPEN = s.OPEN ∧ t.DONE = s.DONE ∧ t.ERR = s.ERR) ∨
    (i = .start ∧ t.OPEN = true ∧ t.DONE = false ∧ t.ERR = false) ∨
    (∃ c : Elem, i = .char c ∧ s.OPEN = true ∧ 255 < c.toNat ∧ t.OPEN = false ∧ t.DONE = s.DONE ∧ t.ERR = true) ∨
    (i = .enc ∧ s.T = 7 ∧ t.OPEN = false ∧ t.DONE = true ∧ t.ERR = s.ERR) ∨
    (i = .clear ∧ t.OPEN = false ∧ t.DONE = false ∧ t.ERR = false) := by
  cases h with
  | start => exact .inr (.inl ⟨rfl, rfl, rfl, rfl⟩)
  | charRejected c he ho hc => exact .inr (.inr (.inl ⟨c, rfl, ho, hc, rfl, rfl, rfl⟩))
  | encLast d hT => exact .inr (.inr (.inr (.inl ⟨rfl, (T_eq_7 s).2 hT, rfl, rfl, rfl⟩)))
  | clear => exact .inr (.inr (.inr (.inr ⟨rfl, rfl, rfl, rfl⟩)))
  | _ => exact .inl (by simp)

/-- Settles O38: `Effect.flags`, with the third flag 0 because an open message has no other flag (10_state.md R30). -/
theorem flagsAreWrittenOnlyAsListed : Obligations.FlagsAreWrittenOnlyAsListed := by
  intro s t hs h
  obtain ⟨hn, rfl⟩ | ⟨-, -, rfl⟩ | ⟨-, -, rfl⟩ | ⟨i, hn, hp, he⟩ := step_effect h
  · exact .inr (.inl ⟨hn, rfl, rfl, rfl⟩)
  · exact .inl ⟨rfl, rfl, rfl⟩
  · exact .inl ⟨rfl, rfl, rfl⟩
  · obtain hkept | ⟨rfl, hstart⟩ | ⟨c, rfl, ho, hc, ho', hd', he'⟩ | ⟨rfl, hT, ho', hd', he'⟩ | ⟨rfl, hclear⟩ :=
      he.flags
    · exact .inl hkept
    · exact .inr (.inr (.inl ⟨hn, hstart⟩))
    · obtain ⟨-, hd, -⟩ := hs.opened ho
      exact .inr (.inr (.inr (.inl ⟨c, hn, ho, hc, ho', hd'.trans hd, he'⟩)))
    · obtain ⟨-, -, hf⟩ := hs.busy hp nofun
      exact .inr (.inr (.inr (.inr (.inl ⟨hn, hT, ho', hd', he'.trans hf⟩))))
    · exact .inr (.inr (.inr (.inr (.inr ⟨hn, hclear⟩))))

/-! ### The responses (10_state.md R38, 30_encoding.md R95, R96) -/

theorem responseWord_div (rc : Rc) (data : BitVec 28) : (responseWord rc data).toNat / 2 ^ 28 = rc.code.toNat := by
  have := data.isLt
  rw [responseWord_toNat]
  omega

theorem responseWord_mod (rc : Rc) (data : BitVec 28) : (responseWord rc data).toNat % 2 ^ 28 = data.toNat := by
  have := data.isLt
  rw [responseWord_toNat]
  omega

/-- A response word with zero `DATA` unless its code is OK has the form that 30_encoding.md R95 and R96 give. -/
theorem responseWord_form (rc : Rc) (data : BitVec 28) (h : rc ≠ .OK → data = 0) :
    (responseWord rc data).toNat / 2 ^ 28 ≤ 3 ∧
    ((responseWord rc data).toNat / 2 ^ 28 ≠ 0 → (responseWord rc data).toNat % 2 ^ 28 = 0) := by
  rw [responseWord_div, responseWord_mod]
  refine ⟨by cases rc <;> decide, fun hrc => ?_⟩
  rw [h (by rintro rfl; exact hrc rfl)]
  rfl

/-- An instruction that fires in its phase responds exactly when it ends at REST, and then once. -/
theorem Effect.response {s t : State} {i : Instr} (h : Effect s i t) (hp : s.PHASE = phaseOf i) :
    (t.OUT = s.OUT ∧ t.PHASE ≠ .REST) ∨
    (t.PHASE = .REST ∧ ∃ rc data, t.OUT = s.OUT ++ [responseWord rc data] ∧ (rc ≠ .OK → data = 0)) := by
  cases h with
  | charFull | finalOpen | pad80Full | pad80Pushed | pad00Found | pad00Full | pad00Pushed | len | load | schedLast
  | init | roundLast => exact .inl (by simp)
  | schedMore | roundMore | encMore => exact .inl (by simp [hp, phaseOf])
  | accumOther hr => exact .inl ⟨rfl, hr⟩
  | accumRest | encLast => exact .inr ⟨rfl, _, _, rfl, fun _ => rfl⟩
  | rdchrDone | rdstat => exact .inr ⟨hp, _, _, rfl, (absurd rfl ·)⟩
  | _ => exact .inr ⟨hp, _, _, rfl, fun _ => rfl⟩

/-- Settles O40: a reset and a step of rest respond nothing, an illegal word is answered, and for an instruction see
`Effect.response`. -/
theorem oneResponseWhenTheCommandCompletes : Obligations.OneResponseWhenTheCommandCompletes := by
  intro s t h
  obtain ⟨hn, rfl⟩ | ⟨hn, -, rfl⟩ | ⟨hn, hp, rfl⟩ | ⟨i, hn, hp, he⟩ := step_effect h
  · exact ⟨.inl rfl, fun _ => by simp [hn]⟩
  · exact ⟨.inl rfl, fun _ => by simp [hn]⟩
  · exact ⟨.inr ⟨_, rfl, responseWord_form .ILLEGAL 0 fun _ => rfl⟩, fun _ => by simp [hn, hp, answerIllegal]⟩
  · obtain ⟨hout, hbusy⟩ | ⟨hrest, rc, data, hout, hdata⟩ := he.response hp
    · rw [consumeInput_OUT] at hout
      exact ⟨.inl hout, fun _ => by simp [hout, hbusy]⟩
    · rw [consumeInput_OUT] at hout
      exact ⟨.inr ⟨_, hout, responseWord_form rc data hdata⟩, fun _ => by simp [hout, hrest, hn]⟩

/-! ### The sequencer (10_state.md R36) -/

/-- The control transfer of every micro-operation. -/
theorem Effect.sequencer {s t : State} {i : Instr} (h : Effect s i t) (hs : s.Inv) (hp : s.PHASE = phaseOf i)
    (hi : i.onPort = false) : (t.PHASE, t.T, t.RET) = sequencerTable s := by
  have hT0 : indexFixed (phaseOf i) = true → s.T = 0 := hs.index_zero hp
  cases h with
  | pad80Full hb | pad80Pushed hb | pad00Found hb | pad00Full hb =>
    simp [sequencerTable, hp, phaseOf, hT0 rfl, ← BitVec.toNat_inj, hb]
  | pad00Pushed hb hb' => simp [sequencerTable, hp, phaseOf, hT0 rfl, ← BitVec.toNat_inj, hb, hb']
  | load | init => simp [sequencerTable, hp, phaseOf]
  | len | accumOther => simp [sequencerTable, hp, phaseOf, hT0 rfl]
  | accumRest hr => simp [sequencerTable, hp, phaseOf, hT0 rfl, hr]
  | schedLast hT | schedMore _ hT | roundLast hT | roundMore hT | encLast _ hT | encMore _ hT =>
    simp [sequencerTable, hp, phaseOf, hT]
  | _ => cases hi

/-- Settles O41: the micro-operation of the phase runs without a fault, and moves the sequencer as `Effect.sequencer`
says. -/
theorem sequencerFollowsTheTable : Obligations.SequencerFollowsTheTable := by
  intro s hs hbusy hreset
  obtain ⟨i, hi, hport⟩ := exists_microOp hbusy
  have hp := phaseOf_microOp hi
  obtain ⟨t, ht⟩ := exists_effect (consumeInput s) i (hs.consumeInput.indexInRange hp)
  exact ⟨t, (step_microOp s i hi hreset).trans ht.exec_eq, ht.sequencer hs.consumeInput hp hport⟩

end Sys2Proof.Machine

/-! PROOFS. A block dispatch, micro-step by micro-step, and the hidden state between the commands of a message. -/

namespace Sys2Proof.Machine

/-! ### The micro-steps of a block dispatch (42_compression.md R171, R180) -/

/-- The machine in SCHED after `n` words of the schedule of the dispatch that began in `s`. -/
def inSched (s : State) (n : Nat) : State :=
  { s with W := scheduleAfter s.BLK s.W n, T := BitVec.ofNat 6 (16 + n), PHASE := .SCHED }

/-- The machine in INIT, the schedule complete. -/
def inInit (s : State) : State := { s with W := schedule s.BLK, T := 0, PHASE := .INIT }

/-- The machine in ROUND after `n` rounds of the dispatch that began in `s`, whose schedule is complete. -/
def inRound (s : State) (n : Nat) : State :=
  { s with W := schedule s.BLK, V := roundsAfter (schedule s.BLK) s.H n, T := BitVec.ofNat 6 n, PHASE := .ROUND }

/-- The machine in ACCUM, all rounds done. -/
def inAccum (s : State) : State :=
  { s with W := schedule s.BLK, V := roundsAfter (schedule s.BLK) s.H 64, T := 0, PHASE := .ACCUM }

/-- The machine at the end of the dispatch. -/
def dispatched (s : State) : State :=
  { s with
    H := compress s.H s.BLK, V := roundsAfter (schedule s.BLK) s.H 64, W := schedule s.BLK, T := 0, PHASE := s.RET
    OUT := if s.RET = .REST then s.OUT ++ [0x00000000#32] else s.OUT }

theorem inSched_IN (s : State) (n : Nat) : (inSched s n).IN = s.IN := rfl
theorem inRound_IN (s : State) (n : Nat) : (inRound s n).IN = s.IN := rfl
theorem inInit_IN (s : State) : (inInit s).IN = s.IN := by simp only [inInit]
theorem inAccum_IN (s : State) : (inAccum s).IN = s.IN := by simp only [inAccum]

theorem toNat_index (n : Nat) (h : n < 64) : (BitVec.ofNat 6 n).toNat = n := by
  rw [BitVec.toNat_ofNat]
  omega

theorem schedStep_eq (s : State) (n : Nat) (h : n < 64) (hT : s.T.toNat = n) :
    schedStep s = s.W.set n (scheduleWord s.W n h) h := by
  subst hT; rfl

theorem roundStep_eq (s : State) (n : Nat) (h : n < 64) (hT : s.T.toNat = n) :
    roundStep s = roundFn s.V romK[n] s.W[n] := by
  subst hT; rfl

theorem schedStep_inSched (s : State) (n : Nat) (h : n < 48) :
    schedStep (inSched s n) = scheduleAfter s.BLK s.W (n + 1) := by
  rw [schedStep_eq _ (16 + n) (by omega) (toNat_index _ (by omega)), scheduleAfter_succ _ _ _ (by omega)]
  rfl

theorem roundStep_inRound (s : State) (n : Nat) (h : n < 64) :
    roundStep (inRound s n) = roundsAfter (schedule s.BLK) s.H (n + 1) := by
  rw [roundStep_eq _ n h (toNat_index _ h), roundsAfter_succ _ _ _ h]
  rfl

theorem exec_load (s : State) : exec .load s = .next (inSched s 0) := Effect.load.exec_eq

theorem exec_sched_inSched (s : State) (n : Nat) (h : n < 47) :
    exec .sched (inSched s n) = .next (inSched s (n + 1)) := by
  have hT : (inSched s n).T.toNat = 16 + n := toNat_index _ (by omega)
  rw [(Effect.schedMore (s := inSched s n) (by omega) (by omega)).exec_eq, schedStep_inSched s n (by omega),
    show (inSched s n).T + 1 = BitVec.ofNat 6 (16 + (n + 1)) from (BitVec.ofNat_add ..).symm]
  simp only [inSched]

theorem exec_sched_inSched_last (s : State) : exec .sched (inSched s 47) = .next (inInit s) := by
  rw [(Effect.schedLast (s := inSched s 47) rfl).exec_eq, schedStep_inSched s 47 (by omega), scheduleAfter_eq_schedule]
  simp only [inSched, inInit, goto]

theorem exec_init_inInit (s : State) : exec .init (inInit s) = .next (inRound s 0) := by
  rw [Effect.init.exec_eq]
  simp only [inInit, inRound, goto, roundsAfter]
  rfl

theorem exec_round_inRound (s : State) (n : Nat) (h : n < 63) :
    exec .round (inRound s n) = .next (inRound s (n + 1)) := by
  have hT : (inRound s n).T.toNat = n := toNat_index _ (by omega)
  rw [(Effect.roundMore (s := inRound s n) (by omega)).exec_eq, roundStep_inRound s n (by omega),
    show (inRound s n).T + 1 = BitVec.ofNat 6 (n + 1) from (BitVec.ofNat_add ..).symm]
  simp only [inRound]

theorem exec_round_inRound_last (s : State) : exec .round (inRound s 63) = .next (inAccum s) := by
  rw [(Effect.roundLast (s := inRound s 63) rfl).exec_eq, roundStep_inRound s 63 (by omega)]
  simp only [inRound, inAccum, goto]

theorem exec_accum_inAccum (s : State) : exec .accum (inAccum s) = .next (dispatched s) := by
  by_cases hr : s.RET = .REST
  · rw [(Effect.accumRest (s := inAccum s) hr).exec_eq]
    simp only [inAccum, dispatched, goto, respond, hr, compress]
    rfl
  · rw [(Effect.accumOther (s := inAccum s) hr).exec_eq]
    simp only [inAccum, dispatched, goto, if_neg hr, compress]

section
variable {s : State} {ws : List Word} (hin : s.IN = ws.map .command)
include hin

theorem run_inSched (n k : Nat) (h : n < 48) :
    Sys2Proof.core.run (n + k) (inSched s 0) = Sys2Proof.core.run k (inSched s n) := by
  induction n generalizing k with
  | zero => rw [Nat.zero_add]
  | succ n ih =>
    rw [Nat.add_assoc, Nat.add_comm 1 k, ih (k + 1) (by omega)]
    exact run_busy k _ _ .sched ws rfl hin (exec_sched_inSched s n (by omega))

theorem run_inRound (n k : Nat) (h : n < 64) :
    Sys2Proof.core.run (n + k) (inRound s 0) = Sys2Proof.core.run k (inRound s n) := by
  induction n generalizing k with
  | zero => rw [Nat.zero_add]
  | succ n ih =>
    rw [Nat.add_assoc, Nat.add_comm 1 k, ih (k + 1) (by omega)]
    exact run_busy k _ _ .round ws rfl hin (exec_round_inRound s n (by omega))

/-- A block dispatch is 115 micro-steps: LOAD, 48 of SCHED, INIT, 64 of ROUND, ACCUM. -/
theorem run_dispatch (hp : s.PHASE = .LOAD) : Sys2Proof.core.run 115 s = .next (dispatched s) :=
  calc Sys2Proof.core.run 115 s
    _ = Sys2Proof.core.run 114 (inSched s 0) := run_busy 114 s _ .load ws (by rw [hp]; rfl) hin (exec_load s)
    _ = Sys2Proof.core.run 67 (inSched s 47) := run_inSched hin 47 67 (by omega)
    _ = Sys2Proof.core.run 66 (inInit s) :=
      run_busy 66 _ _ .sched ws rfl ((inSched_IN s 47).trans hin) (exec_sched_inSched_last s)
    _ = Sys2Proof.core.run 65 (inRound s 0) :=
      run_busy 65 _ _ .init ws rfl ((inInit_IN s).trans hin) (exec_init_inInit s)
    _ = Sys2Proof.core.run 2 (inRound s 63) := run_inRound hin 63 2 (by omega)
    _ = Sys2Proof.core.run 1 (inAccum s) :=
      run_busy 1 _ _ .round ws rfl ((inRound_IN s 63).trans hin) (exec_round_inRound_last s)
    _ = .next (dispatched s) := run_busy 0 _ _ .accum ws rfl ((inAccum_IN s).trans hin) (exec_accum_inAccum s)

end

end Sys2Proof.Machine

/-! PROOFS. The hidden state between the commands of a message (10_state.md R40). -/

namespace Sys2Proof.Machine

/-! ### The command word of an element (30_encoding.md R92, R98) -/

theorem charWord_eq (c : Elem) : 0x20000000#32 ||| c.setWidth 32 = formatC 2 c := by
  have hc := c.isLt
  apply BitVec.eq_of_toNat_eq
  rw [formatC_toNat, BitVec.toNat_or, BitVec.toNat_setWidth, Nat.mod_eq_of_lt (by omega)]
  exact (Nat.two_pow_add_eq_or_of_lt (i := 29) (by omega) 1).symm

theorem decodeWord_charWord (c : Elem) : decodeWord (0x20000000#32 ||| c.setWidth 32) = .ok (.char c) := by
  rw [charWord_eq, decodeWord_formatC]
  simp [takesNoOperand, commandOf]

/-! ### A block of bytes -/

/-- `compress_all` over one more block of 64 bytes (42_compression.md R181). -/
theorem compressAll_packWords_block (h : Words8) (pre tl : List Byte) (hpre : pre.length % 64 = 0)
    (htl : tl.length = 64) :
    compressAll h (packWords (pre ++ tl)) = compress (compressAll h (packWords pre)) (blockOf (packWords tl)) := by
  rw [packWords_append _ _ (by omega), compressAll_append _ _ _ (by rw [packWords_length]; omega),
    compressAll_block _ _ (by rw [packWords_length]; omega)]

/-- A block whose words hold the bytes `tl`, big-endian, is the block of the packed bytes (20_memory.md R61). -/
theorem eq_blockOf_packWords (b : Block) (tl : List Byte) (htl : tl.length = 64)
    (hb : ∀ q : Nat, ∀ h : q / 4 < 16, byteOf b[q / 4] (q % 4) = tl.getD q 0) : b = blockOf (packWords tl) := by
  refine Vector.ext fun j hj => eq_of_bytes _ _ fun k hk => ?_
  have hq := hb (4 * j + k) (by omega)
  simp only [show (4 * j + k) / 4 = j by omega, show (4 * j + k) % 4 = k by omega] at hq
  rw [hq, blockOf_getElem _ _ hj, packWords_byte tl (by omega) j k hk (by omega)]

theorem getD_append_last (m : List Byte) (b : Byte) : (m ++ [b]).getD m.length 0 = b := by
  simp

theorem getD_append_old (m : List Byte) (b : Byte) {q : Nat} (h : q < m.length) : (m ++ [b]).getD q 0 = m.getD q 0 :=
  List.getD_append _ _ _ _ h

/-! ### One more byte -/

section
variable {m : List Byte} {s : State} (h : s.Tracks m) (b : Byte)
include h

theorem State.Tracks.pointer_toNat : s.BP.toNat = m.length % 64 := by
  rw [h.pointer, BitVec.toNat_ofNat]

theorem State.Tracks.flags : flagsOpen s := (msgState_eq_open s).1 h.opened

/-- The packer after a push: the bytes of the word under assembly, the new one last (41_preprocessor.md R142). -/
theorem State.Tracks.packed (q : Nat) (hq : q ≤ m.length % 4) :
    byteOf (packByte s.PK b) (3 - m.length % 4 + q) = (m ++ [b]).getD (m.length - m.length % 4 + q) 0 := by
  rcases Nat.lt_or_eq_of_le hq with hlt | rfl
  · rw [byteOf_packByte_shifted _ _ _ (by omega), getD_append_old _ _ (by omega), ← h.packer q hlt]
    congr 1
    omega
  · rw [show 3 - m.length % 4 + m.length % 4 = 3 by omega, byteOf_packByte_last,
      show m.length - m.length % 4 + m.length % 4 = m.length by omega, getD_append_last]

/-- The block after a push: the whole words hold the bytes of the message, the new one included. -/
theorem State.Tracks.pushed_block (q : Nat) (hq : q / 4 < 16) (hlt : q / 4 < (m.length % 64 + 1) / 4) :
    byteOf (push b s).BLK[q / 4] (q % 4) = (m ++ [b]).getD (64 * (m.length / 64) + q) 0 := by
  rw [(push_pushed b s).block _ hq, h.pointer_toNat]
  split
  case isTrue hnew =>
    have hp := h.packed b (q % 4) (by omega)
    rw [show 3 - m.length % 4 + q % 4 = q % 4 by omega,
      show m.length - m.length % 4 + q % 4 = 64 * (m.length / 64) + q by omega] at hp
    exact hp
  case isFalse hold =>
    rw [getD_append_old _ _ (by omega)]
    exact h.block q hq (by omega)

theorem State.Tracks.count_succ : s.N + 1 = BitVec.ofNat 61 (m ++ [b]).length := by
  rw [h.count, List.length_append]
  exact (BitVec.ofNat_add ..).symm

theorem State.Tracks.pointer_succ : s.BP + 1 = BitVec.ofNat 6 (m ++ [b]).length := by
  rw [h.pointer, List.length_append]
  exact (BitVec.ofNat_add ..).symm

/-- A byte that does not fill the block: the hidden state is that of the longer message. -/
theorem State.Tracks.acceptByte (hb : s.BP.toNat ≠ 63) : (acceptByte b s).Tracks (m ++ [b]) := by
  have hbp := h.pointer_toNat
  have hlen : (m ++ [b]).length = m.length + 1 := by simp
  have hdiv : (m.length + 1) / 64 = m.length / 64 := by omega
  refine ⟨h.rest, h.opened, h.count_succ b, h.pointer_succ b, ?_, fun q hq hlt => ?_, fun q hlt => ?_⟩
  · rw [hlen, hdiv, List.take_append_of_le_length (by omega)]
    exact h.chain
  · rw [hlen] at hlt
    rw [hlen, hdiv]
    exact h.pushed_block b q hq (by omega)
  · rw [hlen] at hlt
    rw [hlen, ← show m.length - m.length % 4 + q = m.length + 1 - (m.length + 1) % 4 + q by omega,
      ← h.packed b q (by omega), acceptByte_PK]
    congr 1
    omega

/-- The chaining value after the dispatch of the block that the byte fills. -/
theorem State.Tracks.chain_full (hb : s.BP.toNat = 63) :
    compress s.H (push b s).BLK = compressAll romHINIT (packWords (m ++ [b])) := by
  have hbp := h.pointer_toNat
  have hlen : (m ++ [b]).length = m.length + 1 := by simp
  have htl : ((m ++ [b]).drop (64 * (m.length / 64))).length = 64 := by rw [List.length_drop]; omega
  have hpre : (m.take (64 * (m.length / 64))).length % 64 = 0 := by rw [List.length_take]; omega
  have hblk : (push b s).BLK = blockOf (packWords ((m ++ [b]).drop (64 * (m.length / 64)))) := by
    refine eq_blockOf_packWords _ _ htl fun q hq => ?_
    rw [h.pushed_block b q hq (by omega)]
    simp only [List.getD_eq_getElem?_getD, List.getElem?_drop]
  calc compress s.H (push b s).BLK
    _ = compressAll romHINIT (packWords (m.take (64 * (m.length / 64)) ++ (m ++ [b]).drop (64 * (m.length / 64)))) := by
      rw [compressAll_packWords_block _ _ _ hpre htl, ← h.chain, ← hblk]
    _ = compressAll romHINIT (packWords (m ++ [b])) := by
      rw [← List.take_append_of_le_length (l₂ := [b]) (by omega), List.take_append_drop]

/-- A byte that fills the block: the hidden state after the dispatch is that of the longer message. -/
theorem State.Tracks.dispatched (hb : s.BP.toNat = 63) :
    (Machine.dispatched (dispatch .REST (Machine.acceptByte b s))).Tracks (m ++ [b]) := by
  have hbp := h.pointer_toNat
  have hlen : (m ++ [b]).length = m.length + 1 := by simp
  refine ⟨rfl, h.opened, h.count_succ b, h.pointer_succ b, ?_, fun q hq hlt => ?_, fun q hlt => ?_⟩
  · rw [List.take_of_length_le (by omega)]
    exact h.chain_full b hb
  · omega
  · omega

end

/-! ### START and CHAR -/

/-- START leaves the hidden state of the empty message (44_commands.md R232). -/
theorem start_tracks (s : State) (hp : s.PHASE = .REST) :
    (respond .OK 0 (flagsOpened (restartMessage { s with H := romHINIT }))).Tracks [] :=
  ⟨hp, rfl, rfl, rfl, (compressAll_nil _).symm, fun _ _ h => absurd h (by simp), fun _ h => absurd h (by simp)⟩

theorem State.Tracks.respond {m : List Byte} {s : State} (h : s.Tracks m) (rc : Rc) (data : BitVec 28) :
    (respond rc data s).Tracks m :=
  ⟨h.rest, h.opened, h.count, h.pointer, h.chain, h.block, h.packer⟩

theorem State.Tracks.withInput {m : List Byte} {s : State} (h : s.Tracks m) (inp : List HostInput) :
    State.Tracks m { s with IN := inp } :=
  ⟨h.rest, h.opened, h.count, h.pointer, h.chain, h.block, h.packer⟩

/-- Settles O48: an element that does not fill the block takes one step, one that fills it 115 more. -/
theorem hiddenStateTracksTheMessage : Obligations.HiddenStateTracksTheMessage := by
  refine ⟨fun s hp => ⟨_, Effect.start.exec_eq, start_tracks s hp⟩, fun m s c ws hm hc hin => ?_⟩
  have hm' := hm.withInput (ws.map .command)
  obtain ⟨ho, -, he⟩ := hm.flags
  rw [← elemByte_eq c]
  by_cases hb : s.BP.toNat = 63
  · have hexec := (Effect.charFull (s := { s with IN := ws.map .command }) c he ho hc hb).exec_eq
    refine ⟨116, _, le_rfl, ?_, hm'.dispatched (elemByte c) hb, rfl, rfl⟩
    rw [run_accepted 115 s _ _ _ _ hm.rest hin (decodeWord_charWord c) hexec]
    exact run_dispatch rfl rfl
  · have hexec := (Effect.charPushed (s := { s with IN := ws.map .command }) c he ho hc hb).exec_eq
    refine ⟨1, _, by omega, ?_, (hm'.acceptByte (elemByte c) hb).respond .OK 0, rfl, rfl⟩
    rw [run_accepted 0 s _ _ _ _ hm.rest hin (decodeWord_charWord c) hexec, run_zero]

end Sys2Proof.Machine

/-! PROOFS. What the data registers hold after reset is never observable (10_state.md R42,
93_implementation_defined.md U1): two machines that agree on the control state stay related, step by step. -/

namespace Sys2Proof.Machine

/-! ### The same control state -/

section
variable {s u : State} (h : s.SameControl u)
include h

theorem State.SameControl.respond (rc : Rc) (data : BitVec 28) : (respond rc data s).SameControl (respond rc data u) :=
  { h with OUT := congrArg (· ++ [responseWord rc data]) h.OUT }

theorem State.SameControl.flagsOpened : (flagsOpened s).SameControl (flagsOpened u) :=
  { h with OPEN := rfl, DONE := rfl, ERR := rfl }

theorem State.SameControl.flagsCleared : (flagsCleared s).SameControl (flagsCleared u) :=
  { h with OPEN := rfl, DONE := rfl, ERR := rfl }

theorem State.SameControl.raiseInvalidInput : (raiseInvalidInput s).SameControl (raiseInvalidInput u) :=
  { h.respond .INVALID_INPUT 0 with OPEN := rfl, ERR := rfl }

theorem State.SameControl.flagsDone : (flagsDone s).SameControl (flagsDone u) :=
  { h with OPEN := rfl, DONE := rfl }

theorem State.SameControl.restartMessage : (restartMessage s).SameControl (restartMessage u) :=
  { h with N := rfl, BP := rfl }

theorem State.SameControl.push (b : Byte) : (push b s).SameControl (push b u) :=
  { h with BP := congrArg (· + 1) h.BP }

theorem State.SameControl.acceptByte (b : Byte) : (acceptByte b s).SameControl (acceptByte b u) :=
  { h.push b with N := congrArg (· + 1) h.N }

theorem State.SameControl.goto (p : Phase) : (goto p s).SameControl (goto p u) := { h with PHASE := rfl }

theorem State.SameControl.dispatch (r : Phase) : (dispatch r s).SameControl (dispatch r u) :=
  { h with PHASE := rfl, RET := rfl }

theorem State.SameControl.consumeInput : (consumeInput s).SameControl (consumeInput u) :=
  { h with IN := by simp [inputAfter, State.cmdReady, h.IN, h.PHASE] }

theorem State.SameControl.takeReset : (takeReset s).SameControl (takeReset u) :=
  ⟨rfl, rfl, rfl, rfl, rfl, rfl, rfl, rfl, h.OUT, h.IN, congrArg (· + 161) h.free⟩

/-- Whatever is written into the data registers, the control state is the same when `T` and `BP` are. -/
theorem State.SameControl.write {t t' bp bp' : BitVec 6} (hT : t = t') (hBP : bp = bp') (a a' v v' : Words8)
    (w w' : Schedule) (b b' : Block) (pk pk' : Word) (d d' : Digest) :
    State.SameControl { s with H := a, V := v, W := w, BLK := b, PK := pk, DIGEST := d, T := t, BP := bp }
      { u with H := a', V := v', W := w', BLK := b', PK := pk', DIGEST := d', T := t', BP := bp' } :=
  ⟨hBP, h.N, h.OPEN, h.DONE, h.ERR, h.PHASE, hT, h.RET, h.OUT, h.IN, h.free⟩

theorem State.SameControl.status : s.status = u.status := by
  simp [State.status, h.OPEN, h.DONE, h.ERR]

theorem State.SameControl.nextStep : nextStep s = nextStep u := by
  simp only [Machine.nextStep, sequencerStep, h.IN, h.PHASE]

theorem State.SameControl.visible : visible (.next s) = visible (.next u) := by
  simp [Machine.visible, State.cmdReady, State.openOut, State.doneOut, State.errOut, h.OUT, h.PHASE, h.OPEN, h.DONE,
    h.ERR]

end

/-! ### The bytes of the block under assembly -/

/-- The first `n` bytes of the block under assembly are the same: its whole words, and the low bytes of the packer. -/
def bytesAgree (n : Nat) (s u : State) : Prop :=
  (∀ j : Nat, ∀ h : j < 16, j < n / 4 → s.BLK[j] = u.BLK[j]) ∧ s.PK.toNat % 256 ^ (n % 4) = u.PK.toNat % 256 ^ (n % 4)

theorem bytesAgree_zero (s u : State) : bytesAgree 0 s u :=
  ⟨fun _ _ h => absurd h (by simp), by simp [Nat.mod_one]⟩

theorem bytesAgree_block {s u : State} (h : bytesAgree 64 s u) : s.BLK = u.BLK :=
  Vector.ext fun j hj => h.1 j hj (by omega)

/-- Four bytes fill the packer: what it held before is shifted out (41_preprocessor.md R142). -/
theorem packByte_congr {x y : Word} (b : Byte) (h : x.toNat % 256 ^ 3 = y.toNat % 256 ^ 3) :
    packByte x b = packByte y b := by
  apply BitVec.eq_of_toNat_eq
  rw [packByte_toNat, packByte_toNat]
  omega

theorem packByte_mod_congr {x y : Word} (b : Byte) {r : Nat} (hr : r < 3) (h : x.toNat % 256 ^ r = y.toNat % 256 ^ r) :
    (packByte x b).toNat % 256 ^ (r + 1) = (packByte y b).toNat % 256 ^ (r + 1) := by
  rw [packByte_toNat, packByte_toNat]
  obtain rfl | rfl | rfl : r = 0 ∨ r = 1 ∨ r = 2 := by omega
  all_goals omega

/-- Pushing the same byte extends the agreement. -/
theorem bytesAgree_push {s u : State} (b : Byte) (hBP : s.BP = u.BP) (h : bytesAgree s.BP.toNat s u) :
    bytesAgree (s.BP.toNat + 1) (push b s) (push b u) := by
  obtain ⟨hblk, hpk⟩ := h
  refine ⟨fun j hj hlt => ?_, ?_⟩
  · rw [(push_pushed b s).block j hj, (push_pushed b u).block j hj, ← hBP]
    split
    case isTrue hnew => exact packByte_congr b (by rwa [hnew.1] at hpk)
    case isFalse hold => exact hblk j hj (by omega)
  · rw [push_PK, push_PK]
    by_cases h3 : s.BP.toNat % 4 = 3
    · rw [show (s.BP.toNat + 1) % 4 = 0 by omega]
      simp [Nat.mod_one]
    · rw [show (s.BP.toNat + 1) % 4 = s.BP.toNat % 4 + 1 by omega]
      exact packByte_mod_congr b (by omega) hpk

theorem push_BP_more {s : State} (b : Byte) (hb : s.BP.toNat ≠ 63) : (push b s).BP.toNat = s.BP.toNat + 1 := by
  have := s.BP.isLt
  rw [(push_pushed b s).pointer]
  omega

/-! ### The relation -/

/-- Inside a dispatch no byte is under assembly and the phase to continue in is known (10_state.md R35). -/
def dispatching (s : State) : Prop := s.BP = 0 ∧ returnLegal s.RET

/-- The data that two machines must share in a phase: what is read before it is written again. -/
def dataAgree (s u : State) : Phase → Prop
  | .REST => s.OPEN = true → s.H = u.H ∧ bytesAgree s.BP.toNat s u
  | .PAD80 => s.H = u.H ∧ bytesAgree s.BP.toNat s u
  | .PAD00 => s.H = u.H ∧ bytesAgree s.BP.toNat s u
  | .LEN => s.H = u.H ∧ bytesAgree 56 s u
  | .LOAD => dispatching s ∧ s.H = u.H ∧ s.BLK = u.BLK
  | .SCHED => dispatching s ∧ s.H = u.H ∧ 16 ≤ s.T.toNat ∧ ∀ j : Nat, ∀ h : j < 64, j < s.T.toNat → s.W[j] = u.W[j]
  | .INIT => dispatching s ∧ s.H = u.H ∧ s.W = u.W
  | .ROUND => dispatching s ∧ s.H = u.H ∧ s.W = u.W ∧ s.V = u.V
  | .ACCUM => dispatching s ∧ s.H = u.H ∧ s.V = u.V ∧ s.T = 0
  | .ENC => s.H = u.H ∧ s.T.toNat ≤ 7 ∧ ∀ k : Nat, ∀ h : k < 64, k < 8 * s.T.toNat → s.DIGEST[k] = u.DIGEST[k]

/-- Two machines that the host cannot tell apart. -/
structure Related (s u : State) : Prop where
  control : s.SameControl u
  digest : s.DONE = true → s.DIGEST = u.DIGEST
  data : dataAgree s u s.PHASE

section
variable {s u : State} (h : Related s u)
include h

theorem Related.data_of {p : Phase} (hp : s.PHASE = p) : dataAgree s u p := hp ▸ h.data

theorem Related.respond (rc : Rc) (data : BitVec 28) : Related (respond rc data s) (respond rc data u) := by
  refine ⟨h.control.respond rc data, h.digest, ?_⟩
  have hd := h.data
  show dataAgree (Machine.respond rc data s) (Machine.respond rc data u) s.PHASE
  cases hp : s.PHASE <;> rw [hp] at hd <;> exact hd

theorem Related.consumeInput : Related (consumeInput s) (consumeInput u) := by
  refine ⟨h.control.consumeInput, h.digest, ?_⟩
  have hd := h.data
  show dataAgree (Machine.consumeInput s) (Machine.consumeInput u) s.PHASE
  cases hp : s.PHASE <;> rw [hp] at hd <;> exact hd

theorem Related.takeReset : Related (takeReset s) (takeReset u) := ⟨h.control.takeReset, nofun, nofun⟩

theorem Related.indexInRange {i : Instr} (hp : s.PHASE = phaseOf i) : indexInRange s i := by
  constructor <;> rintro rfl
  · exact (h.data_of hp).2.2.1
  · exact Nat.lt_succ_of_le (h.data_of hp).2.1

/-! ### The padding engine and the packer -/

/-- A pushed byte completes the block in both machines: they dispatch the same block. -/
theorem Related.dispatch_push (b : Byte) {r : Phase} (hr : returnLegal r) (hb : s.BP.toNat = 63) (hH : s.H = u.H)
    (ha : bytesAgree s.BP.toNat s u) : Related (dispatch r (push b s)) (dispatch r (push b u)) := by
  have hpush := bytesAgree_push b h.control.BP ha
  rw [hb] at hpush
  exact ⟨(h.control.push b).dispatch r, h.digest, ⟨push_BP_full b hb, hr⟩, hH, bytesAgree_block hpush⟩

theorem Related.goto_push (b : Byte) (hb : s.BP.toNat ≠ 63) (hH : s.H = u.H) (ha : bytesAgree s.BP.toNat s u) :
    Related (goto .PAD00 (push b s)) (goto .PAD00 (push b u)) := by
  have hpush := bytesAgree_push b h.control.BP ha
  rw [← push_BP_more b hb] at hpush
  exact ⟨(h.control.push b).goto .PAD00, h.digest, hH, hpush⟩

theorem Related.acceptByte (b : Byte) (hp : s.PHASE = .REST) (hb : s.BP.toNat ≠ 63) (hH : s.H = u.H)
    (ha : bytesAgree s.BP.toNat s u) : Related (acceptByte b s) (acceptByte b u) := by
  have hpush := bytesAgree_push b h.control.BP ha
  rw [← push_BP_more b hb] at hpush
  refine ⟨h.control.acceptByte b, h.digest, ?_⟩
  rw [acceptByte_PHASE, hp]
  exact fun _ => ⟨hH, hpush⟩

theorem Related.acceptByte_dispatch (b : Byte) (hb : s.BP.toNat = 63) (hH : s.H = u.H)
    (ha : bytesAgree s.BP.toNat s u) :
    Related (dispatch .REST (Machine.acceptByte b s)) (dispatch .REST (Machine.acceptByte b u)) := by
  obtain ⟨-, hdig, hdata⟩ := h.dispatch_push b (r := .REST) (.inl rfl) hb hH ha
  exact ⟨(h.control.acceptByte b).dispatch .REST, hdig, hdata⟩

/-! ### Each engine keeps the relation -/

theorem Related.len (hp : s.PHASE = .LEN) :
    Related (dispatch .ENC { s with BLK := (s.BLK.set 14 (lengthHigh s.N)).set 15 (lengthLow s.N), BP := 0 })
      (dispatch .ENC { u with BLK := (u.BLK.set 14 (lengthHigh u.N)).set 15 (lengthLow u.N), BP := 0 }) := by
  obtain ⟨hH, hblk, -⟩ := h.data_of hp
  refine ⟨(h.control.write h.control.T rfl ..).dispatch .ENC, h.digest, ⟨rfl, .inr (.inr rfl)⟩, hH, ?_⟩
  refine Vector.ext fun j hj => ?_
  simp only [dispatch_BLK, Vector.getElem_set, h.control.N]
  split
  · rfl
  · split
    · rfl
    · exact hblk j hj (by omega)

theorem Related.load (hp : s.PHASE = .LOAD) (w w' : Schedule) (hw : ∀ j : Nat, ∀ h : j < 64, j < 16 → w[j] = w'[j]) :
    Related (goto .SCHED { s with W := w, T := 16 }) (goto .SCHED { u with W := w', T := 16 }) := by
  obtain ⟨hdisp, hH, -⟩ := h.data_of hp
  exact ⟨(h.control.write rfl h.control.BP ..).goto .SCHED, h.digest, hdisp, hH, (by decide : 16 ≤ (16#6).toNat), hw⟩

theorem Related.loadSchedule (hp : s.PHASE = .LOAD) (j : Nat) (hj : j < 64) (h16 : j < 16) :
    (loadSchedule s.BLK s.W)[j] = (loadSchedule u.BLK u.W)[j] := by
  obtain ⟨-, -, hblk⟩ := h.data_of hp
  rw [loadSchedule_low _ _ j h16, loadSchedule_low _ _ j h16]
  simp only [hblk]

/-- One SCHED step extends the agreement of the schedules by one word. -/
theorem Related.schedStep (hp : s.PHASE = .SCHED) (j : Nat) (hj : j < 64) (hlt : j < s.T.toNat + 1) :
    (schedStep s)[j] = (schedStep u)[j] := by
  obtain ⟨-, -, h16, hw⟩ := h.data_of hp
  have hT := s.T.isLt
  rw [schedStep_eq s s.T.toNat hT rfl, schedStep_eq u s.T.toNat hT (by rw [h.control.T])]
  exact set_congr _ _ _ _ _ _ (scheduleWord_congr _ _ _ hT h16 fun k hk => hw k (by omega) hk) j hj
    fun hne => hw j hj (by omega)

theorem Related.schedLast (hp : s.PHASE = .SCHED) (hT : s.T.toNat = 63) :
    Related (goto .INIT { s with W := Machine.schedStep s, T := 0 })
      (goto .INIT { u with W := Machine.schedStep u, T := 0 }) := by
  obtain ⟨hdisp, hH, -, -⟩ := h.data_of hp
  exact ⟨(h.control.write rfl h.control.BP ..).goto .INIT, h.digest, hdisp, hH,
    Vector.ext fun j hj => h.schedStep hp j hj (by omega)⟩

theorem Related.schedMore (hp : s.PHASE = .SCHED) (hT : s.T.toNat < 63) :
    Related { s with W := Machine.schedStep s, T := s.T + 1 } { u with W := Machine.schedStep u, T := u.T + 1 } := by
  obtain ⟨hdisp, hH, h16, -⟩ := h.data_of hp
  have hT1 := T_succ_toNat hT
  refine ⟨h.control.write (by rw [h.control.T]) h.control.BP .., h.digest, ?_⟩
  rw [hp]
  exact ⟨hdisp, hH, by simp only [hT1]; omega, fun j hj hlt => h.schedStep hp j hj (hT1 ▸ hlt)⟩

theorem Related.init (hp : s.PHASE = .INIT) :
    Related (goto .ROUND { s with V := s.H, T := 0 }) (goto .ROUND { u with V := u.H, T := 0 }) := by
  obtain ⟨hdisp, hH, hW⟩ := h.data_of hp
  exact ⟨(h.control.write rfl h.control.BP ..).goto .ROUND, h.digest, hdisp, hH, hW, hH⟩

theorem Related.roundStep (hp : s.PHASE = .ROUND) : roundStep s = roundStep u := by
  obtain ⟨-, -, hW, hV⟩ := h.data_of hp
  simp only [Machine.roundStep, hW, hV, h.control.T]

theorem Related.roundLast (hp : s.PHASE = .ROUND) :
    Related (goto .ACCUM { s with V := Machine.roundStep s, T := 0 })
      (goto .ACCUM { u with V := Machine.roundStep u, T := 0 }) := by
  obtain ⟨hdisp, hH, -, -⟩ := h.data_of hp
  exact ⟨(h.control.write rfl h.control.BP ..).goto .ACCUM, h.digest, hdisp, hH, h.roundStep hp, rfl⟩

theorem Related.roundMore (hp : s.PHASE = .ROUND) :
    Related { s with V := Machine.roundStep s, T := s.T + 1 } { u with V := Machine.roundStep u, T := u.T + 1 } := by
  obtain ⟨hdisp, hH, hW, -⟩ := h.data_of hp
  refine ⟨h.control.write (by rw [h.control.T]) h.control.BP .., h.digest, ?_⟩
  rw [hp]
  exact ⟨hdisp, hH, hW, h.roundStep hp⟩

/-- The end of a dispatch: in the phase `RET` the chaining value is shared, and no byte is under assembly. -/
theorem Related.accum (hp : s.PHASE = .ACCUM) {r r' : Phase} (hr : s.RET = r) (hr' : u.RET = r') :
    Related (goto r { s with H := addLanes s.H s.V }) (goto r' { u with H := addLanes u.H u.V }) := by
  obtain ⟨⟨hBP, hlegal⟩, hH, hV, hT⟩ := h.data_of hp
  obtain rfl : r = r' := hr.symm.trans (h.control.RET.trans hr')
  have hsum : addLanes s.H s.V = addLanes u.H u.V := by rw [hH, hV]
  have hbytes : ∀ x y : State, bytesAgree s.BP.toNat x y := by rw [hBP]; exact bytesAgree_zero
  refine ⟨(h.control.write h.control.T h.control.BP ..).goto r, h.digest, ?_⟩
  rw [hr] at hlegal
  obtain rfl | rfl | rfl := hlegal
  · exact fun _ => ⟨hsum, hbytes _ _⟩
  · exact ⟨hsum, hbytes _ _⟩
  · exact ⟨hsum, by simp [hT], fun k _ hk => by simp [hT] at hk⟩

/-- An encoder step writes the same eight characters in both machines. -/
theorem Related.encStep (hp : s.PHASE = .ENC) (hs : s.T.toNat < 8) (hu : u.T.toNat < 8) (k : Nat) (hk : k < 64)
    (hd : k / 8 ≠ s.T.toNat → s.DIGEST[k] = u.DIGEST[k]) : (encStep s hs)[k] = (encStep u hu)[k] := by
  obtain ⟨hH, -, -⟩ := h.data_of hp
  have hT : u.T.toNat = s.T.toNat := by rw [h.control.T]
  unfold Machine.encStep
  by_cases hn : k / 8 = s.T.toNat
  · rw [writeHex_in _ _ _ _ _ hn, writeHex_in _ _ _ _ _ (hn.trans hT.symm)]
    simp only [hH, hT]
  · rw [writeHex_out _ _ _ _ _ hn, writeHex_out _ _ _ _ _ (hT ▸ hn)]
    exact hd hn

theorem Related.encLast (d d' : Digest) (hd : d = d') :
    Related (goto .REST (flagsDone { s with DIGEST := d, T := 0 }))
      (goto .REST (flagsDone { u with DIGEST := d', T := 0 })) :=
  ⟨(h.control.write rfl h.control.BP ..).flagsDone.goto .REST, fun _ => hd, nofun⟩

theorem Related.encMore (hp : s.PHASE = .ENC) (hT : s.T.toNat < 7) (d d' : Digest)
    (hd : ∀ k : Nat, ∀ h : k < 64, k < 8 * (s.T.toNat + 1) → d[k] = d'[k]) (hdone : s.DONE = true → d = d') :
    Related { s with DIGEST := d, T := s.T + 1 } { u with DIGEST := d', T := u.T + 1 } := by
  obtain ⟨hH, -, -⟩ := h.data_of hp
  have hT1 := T_succ_toNat (s := s) (by omega)
  refine ⟨h.control.write (by rw [h.control.T]) h.control.BP .., hdone, ?_⟩
  rw [hp]
  exact ⟨hH, by simp only [hT1]; omega, fun k hk hlt => hd k hk (hT1 ▸ hlt)⟩

/-! ### The commands that change the message state -/

theorem Related.start (hp : s.PHASE = .REST) :
    Related (flagsOpened (restartMessage { s with H := romHINIT }))
      (flagsOpened (restartMessage { u with H := romHINIT })) := by
  refine ⟨(h.control.write h.control.T h.control.BP ..).restartMessage.flagsOpened, nofun, ?_⟩
  rw [flagsOpened_PHASE, restartMessage_PHASE, hp]
  exact fun _ => ⟨rfl, bytesAgree_zero _ _⟩

theorem Related.clear (hp : s.PHASE = .REST) :
    Related (restartMessage (flagsCleared s)) (restartMessage (flagsCleared u)) := by
  refine ⟨h.control.flagsCleared.restartMessage, nofun, ?_⟩
  rw [restartMessage_PHASE, flagsCleared_PHASE, hp]
  exact nofun

theorem Related.charRejected (hp : s.PHASE = .REST) : Related (raiseInvalidInput s) (raiseInvalidInput u) := by
  refine ⟨h.control.raiseInvalidInput, h.digest, ?_⟩
  rw [raiseInvalidInput_PHASE, hp]
  exact nofun

/-- Every instruction takes the same branch in two related machines, and leaves them related. -/
theorem Related.effect {i : Instr} {t : State} (hp : s.PHASE = phaseOf i) (he : Effect s i t) :
    ∃ t', Effect u i t' ∧ Related t t' := by
  have hERR := h.control.ERR
  have hOPEN := h.control.OPEN
  have hDONE := h.control.DONE
  have hBP := congrArg BitVec.toNat h.control.BP
  have hT' := congrArg BitVec.toNat h.control.T
  have hRET := h.control.RET
  have hdata : dataAgree s u (phaseOf i) := h.data_of hp
  cases he with
  | nop => exact ⟨_, .nop, h.respond _ _⟩
  | start => exact ⟨_, .start, (h.start hp).respond _ _⟩
  | charFailed c he => exact ⟨_, .charFailed c (hERR ▸ he), h.respond _ _⟩
  | charClosed c he ho => exact ⟨_, .charClosed c (hERR ▸ he) (hOPEN ▸ ho), h.respond _ _⟩
  | charRejected c he ho hc => exact ⟨_, .charRejected c (hERR ▸ he) (hOPEN ▸ ho) hc, h.charRejected hp⟩
  | charFull c he ho hc hb =>
    obtain ⟨hH, ha⟩ := hdata ho
    exact ⟨_, .charFull c (hERR ▸ he) (hOPEN ▸ ho) hc (hBP ▸ hb), h.acceptByte_dispatch _ hb hH ha⟩
  | charPushed c he ho hc hb =>
    obtain ⟨hH, ha⟩ := hdata ho
    exact ⟨_, .charPushed c (hERR ▸ he) (hOPEN ▸ ho) hc (hBP ▸ hb), (h.acceptByte _ hp hb hH ha).respond _ _⟩
  | finalFailed he => exact ⟨_, .finalFailed (hERR ▸ he), h.respond _ _⟩
  | finalClosed he ho => exact ⟨_, .finalClosed (hERR ▸ he) (hOPEN ▸ ho), h.respond _ _⟩
  | finalOpen he ho =>
    exact ⟨_, .finalOpen (hERR ▸ he) (hOPEN ▸ ho), h.control.goto .PAD80, h.digest, hdata ho⟩
  | rdchrDone n hd =>
    rw [h.digest hd]
    exact ⟨_, .rdchrDone n (hDONE ▸ hd), h.respond _ _⟩
  | rdchrNone n hd => exact ⟨_, .rdchrNone n (hDONE ▸ hd), h.respond _ _⟩
  | rdstat =>
    rw [h.control.status]
    exact ⟨_, .rdstat, h.respond _ _⟩
  | clear => exact ⟨_, .clear, (h.clear hp).respond _ _⟩
  | pad80Full hb => exact ⟨_, .pad80Full (hBP ▸ hb), h.dispatch_push _ (.inr (.inl rfl)) hb hdata.1 hdata.2⟩
  | pad80Pushed hb => exact ⟨_, .pad80Pushed (hBP ▸ hb), h.goto_push _ hb hdata.1 hdata.2⟩
  | pad00Found hb =>
    exact ⟨_, .pad00Found (hBP ▸ hb), h.control.goto .LEN, h.digest, hdata.1, hb ▸ hdata.2⟩
  | pad00Full hb => exact ⟨_, .pad00Full (hBP ▸ hb), h.dispatch_push _ (.inr (.inl rfl)) hb hdata.1 hdata.2⟩
  | pad00Pushed hb hb' => exact ⟨_, .pad00Pushed (hBP ▸ hb) (hBP ▸ hb'), h.goto_push _ hb' hdata.1 hdata.2⟩
  | len => exact ⟨_, .len, h.len hp⟩
  | load => exact ⟨_, .load, h.load hp _ _ (h.loadSchedule hp)⟩
  | schedLast hT => exact ⟨_, .schedLast (hT' ▸ hT), h.schedLast hp hT⟩
  | schedMore hT hlt => exact ⟨_, .schedMore (hT' ▸ hT) (hT' ▸ hlt), h.schedMore hp hlt⟩
  | init => exact ⟨_, .init, h.init hp⟩
  | roundLast hT => exact ⟨_, .roundLast (hT' ▸ hT), h.roundLast hp⟩
  | roundMore hT => exact ⟨_, .roundMore (hT' ▸ hT), h.roundMore hp⟩
  | accumRest hr => exact ⟨_, .accumRest (hRET ▸ hr), (h.accum hp hr (hRET ▸ hr)).respond _ _⟩
  | accumOther hr => exact ⟨_, .accumOther (hRET ▸ hr), h.accum hp rfl rfl⟩
  | encLast d hT hd =>
    refine ⟨_, .encLast _ (hT' ▸ hT) rfl, (h.encLast d _ ?_).respond _ _⟩
    rw [hd]
    exact Vector.ext fun k hk => h.encStep hp _ _ k hk fun hne => hdata.2.2 k hk (by omega)
  | encMore d hT hd =>
    have hwritten := h.encStep hp (by omega) (hT' ▸ (by omega : s.T.toNat < 8))
    refine ⟨_, .encMore _ (hT' ▸ hT) rfl, h.encMore hp hT d _ (fun k hk hlt => ?_) fun hdone => ?_⟩
    · simp only [hd]
      exact hwritten k hk fun hne => hdata.2.2 k hk (by omega)
    · rw [hd]
      exact Vector.ext fun k hk => hwritten k hk fun _ => by simp only [h.digest hdone]

/-- Neither of two related machines stops, and they stay related. -/
theorem Related.step : ∃ s' u', step s = .next s' ∧ step u = .next u' ∧ Related s' u' := by
  have hc := h.consumeInput
  unfold Machine.step
  rw [← h.control.nextStep]
  cases hs : nextStep s with
  | reset => exact ⟨_, _, rfl, rfl, hc.takeReset⟩
  | rest => exact ⟨_, _, rfl, rfl, hc⟩
  | illegal => exact ⟨_, _, rfl, rfl, hc.respond .ILLEGAL 0⟩
  | run i =>
    have hp := phaseOf_nextStep hs
    obtain ⟨s', hs'⟩ := exists_effect _ i (hc.indexInRange hp)
    obtain ⟨u', hu', hrel⟩ := hc.effect hp hs'
    exact ⟨s', u', hs'.exec_eq, hu'.exec_eq, hrel⟩

end

/-- Two related machines are seen alike after every number of steps. -/
theorem Related.run (k : Nat) {s u : State} (h : Related s u) :
    visible (Sys2Proof.core.run k s) = visible (Sys2Proof.core.run k u) ∧ visible (Sys2Proof.core.run k s) ≠ none := by
  induction k generalizing s u with
  | zero => exact ⟨h.control.visible, Option.some_ne_none _⟩
  | succ k ih =>
    obtain ⟨s', u', hs, hu, hrel⟩ := h.step
    rw [run_succ_of_step k s s' hs, run_succ_of_step k u u' hu]
    exact ih hrel

/-- Settles O51: in state IDLE at REST nothing but the control state is asked for, so the two machines are related. -/
theorem unspecifiedContentsAreNeverObservable : Obligations.UnspecifiedContentsAreNeverObservable := by
  intro s u hc hp hidle k
  obtain ⟨ho, hd, -⟩ := (msgState_eq_some s .IDLE).1 hidle
  refine Related.run k ⟨hc, fun hd' => ?_, ?_⟩
  · simp [hd] at hd'
  · rw [hp]
    intro ho'
    simp [ho] at ho'

end Sys2Proof.Machine

/-! PROOFS. Who writes which register (20_memory.md R60), and where an index leaves its register file (R74). -/

namespace Sys2Proof.Machine

/-! ### The writers of each register

One lemma per register: the branches of its listed writers are named, every other branch keeps it. -/

section
variable {s t : State} {i : Instr} (h : Effect s i t)
include h

theorem Effect.H_kept_or : t.H = s.H ∨ i = .start ∨ i = .accum := by
  cases h with
  | start | accumRest | accumOther => exact .inr (by simp)
  | _ => exact .inl (by simp)

theorem Effect.V_kept_or : t.V = s.V ∨ i = .init ∨ i = .round := by
  cases h with
  | init | roundLast | roundMore => exact .inr (by simp)
  | _ => exact .inl (by simp)

theorem Effect.W_kept_or : t.W = s.W ∨ i = .load ∨ i = .sched := by
  cases h with
  | load | schedLast | schedMore => exact .inr (by simp)
  | _ => exact .inl (by simp)

theorem Effect.BLK_kept_or : t.BLK = s.BLK ∨ (∃ c, i = .char c) ∨ i = .pad80 ∨ i = .pad00 ∨ i = .len := by
  cases h with
  | charFull | charPushed | pad80Full | pad80Pushed | pad00Full | pad00Pushed | len => exact .inr (by simp)
  | _ => exact .inl (by simp)

theorem Effect.PK_kept_or : t.PK = s.PK ∨ (∃ c, i = .char c) ∨ i = .pad80 ∨ i = .pad00 := by
  cases h with
  | charFull | charPushed | pad80Full | pad80Pushed | pad00Full | pad00Pushed => exact .inr (by simp)
  | _ => exact .inl (by simp)

theorem Effect.BP_kept_or :
    t.BP = s.BP ∨ (∃ c, i = .char c) ∨ i = .pad80 ∨ i = .pad00 ∨ i = .len ∨ i = .start ∨ i = .clear := by
  cases h with
  | charFull | charPushed | pad80Full | pad80Pushed | pad00Full | pad00Pushed | len | start | clear =>
    exact .inr (by simp)
  | _ => exact .inl (by simp)

theorem Effect.N_kept_or : t.N = s.N ∨ (∃ c, i = .char c) ∨ i = .start ∨ i = .clear := by
  cases h with
  | charFull | charPushed | start | clear => exact .inr (by simp)
  | _ => exact .inl (by simp)

theorem Effect.DIGEST_kept_or : t.DIGEST = s.DIGEST ∨ i = .enc := by
  cases h with
  | encLast | encMore => exact .inr rfl
  | _ => exact .inl (by simp)

theorem Effect.T_kept_or : t.T = s.T ∨ i = .load ∨ i = .sched ∨ i = .init ∨ i = .round ∨ i = .enc := by
  cases h with
  | load | schedLast | schedMore | init | roundLast | roundMore | encLast | encMore => exact .inr (by simp)
  | _ => exact .inl (by simp)

theorem Effect.RET_kept_or : t.RET = s.RET ∨ (∃ c, i = .char c) ∨ i = .pad80 ∨ i = .pad00 ∨ i = .len := by
  cases h with
  | charFull | pad80Full | pad00Full | len => exact .inr (by simp)
  | _ => exact .inl (by simp)

/-- The host's stream and the counter of free values are no instruction's to write (logs 3 and 2). -/
theorem Effect.IN_free_kept : t.IN = s.IN ∧ t.free = s.free := by
  cases h <;> simp

end

/-- Settles O39: the instruction is one of its branches, and each register has its own lemma on the branches. -/
theorem registersAreWrittenOnlyByTheirOwners : Obligations.RegistersAreWrittenOnlyByTheirOwners := by
  intro i s t h
  have he := effect_of_exec h
  exact ⟨he.H_kept_or, he.V_kept_or, he.W_kept_or, he.BLK_kept_or, he.PK_kept_or, he.BP_kept_or, he.N_kept_or,
    he.DIGEST_kept_or, he.T_kept_or, he.RET_kept_or, he.IN_free_kept⟩

/-! ### The index faults (20_memory.md R74; log 7) -/

/-- The index condition is exact: inside it an instruction has a next state, outside it the index leaves its file. -/
theorem exec_fault_iff (s : State) (i : Instr) : exec i s = .fault .indexOutOfRange ↔ ¬ indexInRange s i := by
  constructor
  · intro hfault hi
    obtain ⟨t, ht⟩ := exists_effect s i hi
    exact nomatch hfault.symm.trans ht.exec_eq
  · intro hi
    obtain ⟨rfl, hT⟩ | ⟨rfl, hT⟩ : (i = .sched ∧ ¬ 16 ≤ s.T.toNat) ∨ (i = .enc ∧ ¬ s.T.toNat < 8) := by
      simpa only [indexInRange, not_and_or, Classical.not_imp] using hi
    · exact execSched_outside (by omega)
    · exact execEnc_outside (by omega)

/-- Settles O33: the index condition of `exec_fault_iff`, read for SCHED and for ENC. -/
theorem indexFaultExactlyOutsideTheRanges : Obligations.IndexFaultExactlyOutsideTheRanges := by
  intro s
  simp [exec_fault_iff, indexInRange]

end Sys2Proof.Machine

/-! PROOFS. The encoder inverts the decoder in both encoding spaces, and the decoder agrees with the masks of the
opcode table (30_encoding.md R92, R97 to R101). -/

namespace Sys2Proof.Machine

/-! ### Decode and encode -/

/-- Decoding gives back every instruction with every operand. -/
theorem decode_encode (i : Instr) : decode (encode i) = .ok i := by
  cases i with
  | char c => exact (decodeWord_formatC 2 c).trans (by simp [takesNoOperand, commandOf])
  | rdchr n =>
    exact (decodeWord_formatC 4 (n.setWidth 24)).trans
      (by simp [takesNoOperand, commandOf, indexOf_setWidth, indexHighOf_setWidth])
  | nop | start | final | rdstat | clear => exact (decodeWord_formatC _ _).trans (by decide)
  | _ => rfl

/-- A command of a legal opcode encodes to the word it came from, if every bit it does not use is zero
(30_encoding.md R97 steps 4 and 5). -/
theorem encode_commandOf {op : BitVec 4} {arg : BitVec 24} (hop : op < 7) (harg : takesNoOperand op = true → arg = 0)
    (hidx : op = 4 → indexHighOf arg = 0) : encode (commandOf op arg) = .port (formatC op arg) := by
  obtain rfl | rfl | rfl | rfl | rfl | rfl | rfl := op_cases op hop
  case inr.inr.inl => rfl
  case inr.inr.inr.inr.inl =>
    show Encoded.port (formatC 4 ((indexOf arg).setWidth 24)) = _
    rw [setWidth_indexOf arg (hidx rfl)]
  all_goals obtain rfl := harg rfl; rfl

/-- Every code that decodes is the encoding of its instruction. -/
theorem encode_of_decode {e : Encoded} {i : Instr} (h : decode e = .ok i) : encode i = e := by
  cases e with
  | port w =>
    obtain ⟨hw, hop, harg, hidx, rfl⟩ := decodeWord_ok w i h
    rw [encode_commandOf hop harg hidx, ← hw]
  | phase c => exact decodePhase_ok c i h

/-- Settles O1: both directions, each for every instruction. -/
theorem decodeInvertsEncodeExactly : Obligations.DecodeInvertsEncodeExactly :=
  fun _ i => ⟨encode_of_decode, fun h => h ▸ decode_encode i⟩

/-- Settles O4: each word, and each phase code, is the encoding of its instruction as the tables write it. -/
theorem writtenWordsDecodeToTheirInstructions : Obligations.WrittenWordsDecodeToTheirInstructions :=
  ⟨decode_encode .nop, decode_encode .start, decode_encode (.char 0x61), decode_encode (.char 0x100),
    decode_encode .final, decode_encode (.rdchr 63), decode_encode .rdstat, decode_encode .clear,
    decode_encode .pad80, decode_encode .sched, decode_encode .enc⟩

/-! ### The rows of the opcode table (30_encoding.md R92) -/

section
variable (w : Word)

theorem decodeWord_ok_iff {i : Instr} {v : Word} (hv : encode i = .port v) : decodeWord w = .ok i ↔ w = v := by
  rw [eq_comm (a := w), ← Encoded.port.injEq, ← hv]
  exact decodeInvertsEncodeExactly (.port w) i

/-- A row without operand bits: the mask keeps the whole word. -/
theorem decodeWord_ok_iff_fullMask {i : Instr} {v : Word} (hv : encode i = .port v) :
    decodeWord w = .ok i ↔ w &&& 0xFFFFFFFF#32 = v := by
  rw [decodeWord_ok_iff w hv, show w &&& 0xFFFFFFFF#32 = w from BitVec.and_allOnes]

theorem decodeWord_char_iff (c : Elem) : decodeWord w = .ok (.char c) ↔
    w &&& 0xFF000000#32 = 0x20000000#32 ∧ c.toNat = w.toNat % 2 ^ 24 := by
  rw [decodeWord_ok_iff w rfl, ← BitVec.toNat_inj, formatC_toNat, charMask_iff]
  have hc := c.isLt
  show w.toNat = 2 * 2 ^ 28 + c.toNat ↔ _
  omega

theorem decodeWord_rdchr_iff (n : BitVec 6) : decodeWord w = .ok (.rdchr n) ↔
    w &&& 0xFFFFFFC0#32 = 0x40000000#32 ∧ n.toNat = w.toNat % 2 ^ 6 := by
  rw [decodeWord_ok_iff w rfl, ← BitVec.toNat_inj, formatC_toNat, rdchrMask_iff, BitVec.toNat_setWidth]
  have hn := n.isLt
  show w.toNat = 4 * 2 ^ 28 + n.toNat % 2 ^ 24 ↔ _
  omega

/-- A word is illegal exactly when it spells none of the seven commands. -/
theorem decodeWord_error_iff : (∃ e, decodeWord w = .error e) ↔
    decodeWord w ≠ .ok .nop ∧ decodeWord w ≠ .ok .start ∧ (∀ c, decodeWord w ≠ .ok (.char c)) ∧
    decodeWord w ≠ .ok .final ∧ (∀ n, decodeWord w ≠ .ok (.rdchr n)) ∧
    decodeWord w ≠ .ok .rdstat ∧ decodeWord w ≠ .ok .clear := by
  cases h : decodeWord w with
  | error e => simp
  | ok i =>
    have hport := decodeWord_onPort w i h
    cases i <;> simp [Instr.onPort] at hport ⊢

end

/-- Settles O2: a row without operand by `decodeWord_ok_iff_fullMask`, CHAR and RDCHR by their own masks; an illegal
word spells no row's command, whatever the operand. -/
theorem wordSpellsCommandByMaskAndMatch : Obligations.WordSpellsCommandByMaskAndMatch := by
  intro w
  have hnop := decodeWord_ok_iff_fullMask w (i := .nop) (v := 0x00000000#32) rfl
  have hstart := decodeWord_ok_iff_fullMask w (i := .start) (v := 0x10000000#32) rfl
  have hfinal := decodeWord_ok_iff_fullMask w (i := .final) (v := 0x30000000#32) rfl
  have hrdstat := decodeWord_ok_iff_fullMask w (i := .rdstat) (v := 0x50000000#32) rfl
  have hclear := decodeWord_ok_iff_fullMask w (i := .clear) (v := 0x60000000#32) rfl
  have hchar : (∀ c, decodeWord w ≠ .ok (.char c)) ↔ w &&& 0xFF000000#32 ≠ 0x20000000#32 :=
    ⟨fun h hm => h (argOf w) ((decodeWord_char_iff w _).2 ⟨hm, argOf_toNat w⟩),
      fun h c hc => h ((decodeWord_char_iff w c).1 hc).1⟩
  have hrdchr : (∀ n, decodeWord w ≠ .ok (.rdchr n)) ↔ w &&& 0xFFFFFFC0#32 ≠ 0x40000000#32 :=
    ⟨fun h hm => h (w.setWidth 6) ((decodeWord_rdchr_iff w _).2 ⟨hm, BitVec.toNat_setWidth ..⟩),
      fun h n hn => h ((decodeWord_rdchr_iff w n).1 hn).1⟩
  refine ⟨hnop, hstart, decodeWord_char_iff w, hfinal, decodeWord_rdchr_iff w, hrdstat, hclear, ?_⟩
  rw [decodeWord_error_iff, hchar, hrdchr]
  exact and_congr hnop.not <| and_congr hstart.not <| and_congr_right' <| and_congr hfinal.not <|
    and_congr_right' <| and_congr hrdstat.not hclear.not

/-! ### A narrower element (30_encoding.md R98) -/

/-- On a word of CHAR's row only the width of the element is left to check. -/
theorem decodeWordFor_char (charW : Nat) {w : Word} (h : w &&& 0xFF000000#32 = 0x20000000#32) :
    decodeWordFor charW w = if argOf w >>> charW ≠ 0 then .error .elementTooWide else .ok (.char (argOf w)) := by
  obtain ⟨arg, rfl⟩ : ∃ arg, w = formatC 2 arg :=
    ⟨argOf w, (decodeWord_ok_iff w rfl).1 ((decodeWord_char_iff w _).2 ⟨h, argOf_toNat w⟩)⟩
  simp [decodeWordFor, rsvOf_formatC, opOf_formatC, argOf_formatC, takesNoOperand, commandOf]

theorem argOf_shiftRight_eq_zero (charW : Nat) (w : Word) : argOf w >>> charW = 0 ↔ w.toNat % 2 ^ 24 < 2 ^ charW := by
  rw [← BitVec.toNat_inj, BitVec.toNat_ushiftRight, argOf_toNat, Nat.shiftRight_eq_div_pow]
  exact Nat.div_eq_zero_iff_lt (Nat.two_pow_pos charW)

theorem argOf_eq_ofNat (w : Word) : argOf w = BitVec.ofNat 24 w.toNat :=
  BitVec.eq_of_toNat_eq (argOf_toNat w)

/-- Settles O3: the reserved bits are zero exactly when the operand is below `2 ^ CHAR_W`. -/
theorem narrowElementWidthReservesUpperBits : Obligations.NarrowElementWidthReservesUpperBits := by
  intro charW w _ _ hw
  rw [decodeWordFor_char charW hw, ← argOf_eq_ofNat, ← Nat.not_lt, ← argOf_shiftRight_eq_zero]
  exact ⟨fun h => if_neg (not_not_intro h), fun h => if_pos h⟩

/-! ### The micro-operation of the phase (30_encoding.md R101) -/

/-- Settles O6: the listed instruction is the phase's micro-operation, so `step_microOp` applies under every input but
reset; what is left is the input after the step. -/
theorem stepRunsTheMicroOperationOfThePhase : Obligations.StepRunsTheMicroOperationOfThePhase := by
  rintro s p i hmem rfl
  have hop : s.PHASE.microOp = .ok i := by
    simp only [List.mem_cons, Prod.mk.injEq, List.not_mem_nil, or_false] at hmem
    obtain h | h | h | h | h | h | h | h | h := hmem <;> rw [h.1, h.2] <;> rfl
  have hbusy : s.PHASE ≠ .REST := fun hr => by rw [hr] at hop; cases hop
  refine ⟨fun hin => step_busy s i [] hop hin, fun w rest hin => ?_, fun rest hin => ?_⟩
  · rw [step_microOp s i hop (by simp [hin]), consumeInput_of_eq s (inputAfter_waiting s w rest hbusy hin)]
  · rw [step_microOp s i hop (by simp [hin]), consumeInput, inputAfter_idle s rest hin]

end Sys2Proof.Machine

/-! PROOFS. The ROM words are the fractional parts of the roots of the first primes (40_constants.md R121 to R123). -/

namespace Sys2Proof.Machine

/-! ### The first 64 primes -/

/-- The first values of `Nat.nth p` are what the filter of the numbers below `n` keeps, in order. -/
theorem nth_eq_getElem_filter_range (p : Nat → Prop) [DecidablePred p] (n j : Nat)
    (h : j < ((List.range n).filter p).length) : Nat.nth p j = ((List.range n).filter p)[j] := by
  induction n with
  | zero => simp at h
  | succ n ih =>
    have hlen : ((List.range n).filter p).length = Nat.count p n := by
      rw [Nat.count, List.countP_eq_length_filter]
    simp only [List.range_succ, List.filter_append] at h ⊢
    by_cases hj : j < ((List.range n).filter p).length
    · rw [List.getElem_append_left hj, ih hj]
    · have hp : p n := by
        by_contra hp
        exact hj (by simpa [hp] using h)
      have hlt : j < ((List.range n).filter p).length + 1 := by simpa [hp] using h
      have hlast : j = Nat.count p n := by omega
      simp [hp, hlast, hlen, Nat.nth_count hp]

/-- Below `b ^ 2`, trial division by the numbers below `b` decides primality. -/
theorem prime_iff_of_lt_sq {b n : Nat} (h : n < b ^ 2) :
    n.Prime ↔ 2 ≤ n ∧ ∀ m < b, 2 ≤ m → m < n → ¬m ∣ n := by
  constructor
  · rw [Nat.prime_def_lt']
    exact fun ⟨h2, hdvd⟩ => ⟨h2, fun m _ hm hlt => hdvd m hm hlt⟩
  · rw [Nat.prime_def_le_sqrt]
    exact fun ⟨h2, hdvd⟩ => ⟨h2, fun m hm hsqrt =>
      hdvd m (hsqrt.trans_lt (Nat.sqrt_lt'.2 h)) hm (hsqrt.trans_lt (Nat.sqrt_lt_self h2))⟩

/-- The primes below 312, which are the first 64 (R121). -/
def firstPrimes : Vector Nat 64 :=
  #v[2, 3, 5, 7, 11, 13, 17, 19, 23, 29, 31, 37, 41, 43, 47, 53, 59, 61, 67, 71, 73, 79, 83, 89, 97, 101, 103, 107, 109,
    113, 127, 131, 137, 139, 149, 151, 157, 163, 167, 173, 179, 181, 191, 193, 197, 199, 211, 223, 227, 229, 233, 239,
    241, 251, 257, 263, 269, 271, 277, 281, 283, 293, 307, 311]

/-- The numbers below 312 that trial division below 18 leaves, as `312 < 18 ^ 2`. -/
theorem filter_prime_range : (List.range 312).filter Nat.Prime = firstPrimes.toList := by
  have htrial : (List.range 312).filter Nat.Prime =
      (List.range 312).filter (fun n => 2 ≤ n ∧ ∀ m < 18, 2 ≤ m → m < n → ¬m ∣ n) :=
    List.filter_congr fun n hn => by
      have hlt : n < 18 ^ 2 := (List.mem_range.1 hn).trans (by decide)
      simp only [prime_iff_of_lt_sq hlt]
  rw [htrial]
  decide +kernel

theorem nth_prime_eq_firstPrimes (j : Nat) (h : j < 64) : Nat.nth Nat.Prime j = firstPrimes[j] := by
  rw [nth_eq_getElem_filter_range Nat.Prime 312 j (by rw [filter_prime_range]; exact h)]
  simp [filter_prime_range]

/-! ### The fractional part of a root -/

/-- `w` holds the first 32 binary places after the point of the `k`-th root of `p`: with an integer part `a` in front it
is the integer `k`-th root of `p * 2 ^ (32 * k)`. The bound on `a` makes this decidable. -/
abbrev IsRootFraction (k p : Nat) (w : Word) : Prop :=
  ∃ a < 8, (a * 2 ^ 32 + w.toNat) ^ k ≤ p * 2 ^ (32 * k) ∧ p * 2 ^ (32 * k) < (a * 2 ^ 32 + w.toNat + 1) ^ k

theorem IsRootFraction.exists_root {k p : Nat} {w : Word} (h : IsRootFraction k p w) :
    ∃ r, r ^ k ≤ p * 2 ^ (32 * k) ∧ p * 2 ^ (32 * k) < (r + 1) ^ k ∧ w.toNat = r % 2 ^ 32 := by
  obtain ⟨a, -, hle, hlt⟩ := h
  refine ⟨a * 2 ^ 32 + w.toNat, hle, hlt, ?_⟩
  rw [Nat.mul_add_mod_self_right, Nat.mod_eq_of_lt w.isLt]

theorem romHINIT_isRootFraction : ∀ j : Fin 8, IsRootFraction 2 firstPrimes[j] romHINIT[j] := by
  decide

theorem romK_isRootFraction : ∀ j : Fin 64, IsRootFraction 3 firstPrimes[j] romK[j] := by
  decide

/-- Settles O30: the `j`-th prime is `firstPrimes[j]`, and the word is the fraction of its square or cube root. -/
theorem romsHoldTheRootsOfThePrimes : Obligations.RomsHoldTheRootsOfThePrimes := by
  refine ⟨fun j h => ?_, fun j h => ?_⟩
  · rw [nth_prime_eq_firstPrimes j (by omega)]
    exact (romHINIT_isRootFraction ⟨j, h⟩).exists_root
  · rw [nth_prime_eq_firstPrimes j h]
    exact (romK_isRootFraction ⟨j, h⟩).exists_root

end Sys2Proof.Machine

/-! PROOFS. The padding engine and the packer, micro-step by micro-step (41_preprocessor.md R142 to R148). -/

namespace Sys2Proof.Machine

/-! ### PAD80 and PAD00 (41_preprocessor.md R145, R146) -/

theorem dispatch_push_pushed (r : Phase) (b : Byte) (s : State) : Pushed b s (dispatch r (push b s)) := by
  obtain ⟨hpk, hbp, hblk⟩ := push_pushed b s
  exact ⟨hpk, hbp, hblk⟩

theorem goto_push_pushed (p : Phase) (b : Byte) (s : State) : Pushed b s (goto p (push b s)) := by
  obtain ⟨hpk, hbp, hblk⟩ := push_pushed b s
  exact ⟨hpk, hbp, hblk⟩

/-- `Padded b s t`: from `s` the padding engine has pushed `b` and gone on to PAD00, by way of a dispatch when the push
filled the block (41_preprocessor.md R143). -/
def Padded (b : Byte) (s t : State) : Prop :=
  Pushed b s t ∧
    if s.BP.toNat = 63 then t = { s with PK := t.PK, BP := t.BP, BLK := t.BLK, RET := .PAD00, PHASE := .LOAD }
    else t = { s with PK := t.PK, BP := t.BP, BLK := t.BLK, PHASE := .PAD00 }

theorem padded_dispatch {s : State} (b : Byte) (hb : s.BP.toNat = 63) : Padded b s (dispatch .PAD00 (push b s)) :=
  ⟨dispatch_push_pushed .PAD00 b s, by rw [if_pos hb]; rfl⟩

theorem padded_goto {s : State} (b : Byte) (hb : s.BP.toNat ≠ 63) : Padded b s (goto .PAD00 (push b s)) :=
  ⟨goto_push_pushed .PAD00 b s, by rw [if_neg hb]; rfl⟩

/-- Settles O18: the two branches of PAD80, the block full or not. -/
theorem pad80PushesTheMarker : Obligations.Pad80PushesTheMarker := by
  refine ⟨rfl, fun s => ?_⟩
  by_cases hb : s.BP.toNat = 63
  · exact ⟨_, (Effect.pad80Full hb).exec_eq, padded_dispatch 0x80 hb⟩
  · exact ⟨_, (Effect.pad80Pushed hb).exec_eq, padded_goto 0x80 hb⟩

/-- Settles O19: the three branches of PAD00, the length field reached, the block full, or neither. -/
theorem pad00FillsWithZeros : Obligations.Pad00FillsWithZeros := by
  refine ⟨rfl, fun s => ?_⟩
  split
  case isTrue h56 => exact (Effect.pad00Found h56).exec_eq
  case isFalse h56 =>
    by_cases hb : s.BP.toNat = 63
    · exact ⟨_, (Effect.pad00Full hb).exec_eq, padded_dispatch 0x00 hb⟩
    · exact ⟨_, (Effect.pad00Pushed h56 hb).exec_eq, padded_goto 0x00 hb⟩

/-! ### LEN (41_preprocessor.md R147, R148) -/

/-- Settles O20: LEN has one branch, and the two words it writes have the values of the halves of `8·N`. -/
theorem lenWritesTheBitLength : Obligations.LenWritesTheBitLength := by
  refine ⟨rfl, fun s => ⟨_, Effect.len.exec_eq, ?_, ?_, fun j h => ?_, rfl⟩⟩
  · simp only [dispatch_BLK]
    rw [Vector.getElem_set_ne _ _ (by omega), Vector.getElem_set_self, lengthHigh_toNat]
  · simp only [dispatch_BLK, Vector.getElem_set_self, lengthLow_toNat]
  · simp only [dispatch_BLK]
    rw [Vector.getElem_set_ne _ _ (by omega), Vector.getElem_set_ne _ _ (by omega)]

/-! ### The word under assembly (41_preprocessor.md R142, 20_memory.md R61) -/

theorem push_BLK_of_ne (b : Byte) (s : State) (j : Nat) (hj : j < 16)
    (h : s.BP.toNat % 4 = 3 → j ≠ s.BP.toNat / 4) : (push b s).BLK[j] = s.BLK[j] := by
  rw [(push_pushed b s).block j hj, if_neg fun hnew => h hnew.1 hnew.2]

theorem push_BLK_written (b : Byte) (s : State) (h : s.BP.toNat / 4 < 16) (h3 : s.BP.toNat % 4 = 3) :
    (push b s).BLK[s.BP.toNat / 4] = (push b s).PK := by
  rw [(push_pushed b s).block _ h, if_pos ⟨h3, rfl⟩]

/-- Four bytes fill the packer, whatever it held. -/
theorem packByte_four (pk : Word) (p0 p1 p2 p3 : Byte) :
    packByte (packByte (packByte (packByte pk p0) p1) p2) p3 = packWord p0 p1 p2 p3 := by
  have h0 := p0.isLt
  have h1 := p1.isLt
  have h2 := p2.isLt
  have h3 := p3.isLt
  apply BitVec.eq_of_toNat_eq
  simp only [packByte_toNat, packWord_toNat]
  omega

/-- Settles O21: only the fourth push writes an element, that of the four bytes by `packByte_four`. -/
theorem fourPushesAssembleABigEndianWord : Obligations.FourPushesAssembleABigEndianWord := by
  rintro s p0 p1 p2 p3 hbp t rfl
  have hlt := s.BP.isLt
  have h1 : (push p0 s).BP.toNat = s.BP.toNat + 1 := push_BP_more p0 (by omega)
  have h2 : (push p1 (push p0 s)).BP.toNat = s.BP.toNat + 2 := by rw [push_BP_more _ (by omega), h1]
  have h3 : (push p2 (push p1 (push p0 s))).BP.toNat = s.BP.toNat + 3 := by rw [push_BP_more _ (by omega), h2]
  refine ⟨fun j hj hne => ?_, fun h => ?_, ?_⟩
  · rw [push_BLK_of_ne _ _ _ _ (by omega), push_BLK_of_ne _ _ _ _ (by omega), push_BLK_of_ne _ _ _ _ (by omega),
      push_BLK_of_ne _ _ _ _ (by omega)]
  · have hw := push_BLK_written p3 (push p2 (push p1 (push p0 s))) (by omega) (by omega)
    simp only [show (push p2 (push p1 (push p0 s))).BP.toNat / 4 = s.BP.toNat / 4 by omega] at hw
    rw [hw]
    simp only [push_PK, packByte_four, packWord_toNat]
  · rw [(push_pushed p3 _).pointer, h3]

end Sys2Proof.Machine

/-! PROOFS. The padded message, byte by byte (41_preprocessor.md R149, R150). -/

namespace Sys2Proof.Machine

/-! ### Words as big-endian bytes (20_memory.md R61) -/

/-- The four bytes of a word in arrival order (20_memory.md R61). -/
def wordBytes (w : Word) : List Byte := [byteOf w 0, byteOf w 1, byteOf w 2, byteOf w 3]

theorem wordBytes_packWord (p0 p1 p2 p3 : Byte) : wordBytes (packWord p0 p1 p2 p3) = [p0, p1, p2, p3] := by
  obtain ⟨h0, h1, h2, h3⟩ := byteOf_packWord p0 p1 p2 p3
  rw [wordBytes, h0, h1, h2, h3]

/-- The bytes of a packed sequence are the sequence, when it is a whole number of words. -/
theorem packWords_flatMap_wordBytes : ∀ m : List Byte, m.length % 4 = 0 → (packWords m).flatMap wordBytes = m
  | [], _ => rfl
  | [_], h | [_, _], h | [_, _, _], h => absurd h (by simp)
  | p0 :: p1 :: p2 :: p3 :: m, h => by
    have hm : m.length % 4 = 0 := by simp only [List.length_cons] at h; omega
    rw [packWords_cons, List.flatMap_cons, wordBytes_packWord, packWords_flatMap_wordBytes m hm]
    rfl

/-! ### The length field (41_preprocessor.md R148, 20_memory.md R62) -/

/-- A byte of a 32-bit part of a number is the byte of the number at the shifted place. -/
theorem byteOf_extractLsb' (n i k : Nat) (hi : i ≤ 32) :
    byteOf ((BitVec.ofNat 64 n).extractLsb' i 32) k = BitVec.ofNat 8 (n / 2 ^ (i + (24 - 8 * k))) := by
  apply BitVec.eq_of_getLsbD_eq
  intro j hj
  have hword : 24 - 8 * k + j < 32 := by omega
  have hfield : i + (24 - 8 * k + j) < 64 := by omega
  have hplace : j + (i + (24 - 8 * k)) = i + (24 - 8 * k + j) := by omega
  simp only [byteOf, BitVec.getLsbD_extractLsb', BitVec.getLsbD_ofNat, Nat.testBit_div_two_pow, hj, hword, hfield,
    hplace, decide_true, Bool.true_and]

/-- The two length words are the eight bytes of the length, most significant first. -/
theorem wordBytes_length (n : Nat) :
    wordBytes ((BitVec.ofNat 64 n).extractLsb' 32 32) ++ wordBytes ((BitVec.ofNat 64 n).extractLsb' 0 32) =
      (List.range 8).map fun k => BitVec.ofNat 8 (n / 2 ^ (56 - 8 * k)) := by
  simp only [wordBytes, byteOf_extractLsb' n 32 _ (by omega), byteOf_extractLsb' n 0 _ (by omega)]
  rfl

/-! ### The padded message (41_preprocessor.md R149, R150) -/

theorem padZeros_lt (n : Nat) : padZeros n < 64 := by
  unfold padZeros
  omega

theorem padZeros_mod (n : Nat) : (n + 1 + padZeros n) % 64 = 56 := by
  unfold padZeros
  omega

/-- The message with its marker and its zero bytes: what `pad` packs before the two length words. -/
def marked (m : List Byte) : List Byte := m ++ [0x80#8] ++ List.replicate (padZeros m.length) 0x00#8

theorem marked_length (m : List Byte) : (marked m).length = m.length + 1 + padZeros m.length := by
  simp only [marked, List.length_append, List.length_singleton, List.length_replicate]

theorem pad_eq (m : List Byte) : pad m = packWords (marked m) ++
    [(BitVec.ofNat 64 (8 * m.length)).extractLsb' 32 32, (BitVec.ofNat 64 (8 * m.length)).extractLsb' 0 32] := rfl

theorem pad_length (m : List Byte) : (pad m).length = 16 * ((m.length + 8) / 64 + 1) := by
  have hlt := padZeros_lt m.length
  have hmod := padZeros_mod m.length
  calc (pad m).length
    _ = (m.length + 1 + padZeros m.length) / 4 + 2 := by
      rw [pad_eq, List.length_append, packWords_length, marked_length]; rfl
    _ = 16 * ((m.length + 8) / 64 + 1) := by omega

theorem pad_flatMap_wordBytes (m : List Byte) :
    (pad m).flatMap wordBytes =
      marked m ++ (List.range 8).map fun k => BitVec.ofNat 8 (8 * m.length / 2 ^ (56 - 8 * k)) := by
  have hmod := padZeros_mod m.length
  have hwords : (marked m).length % 4 = 0 := by rw [marked_length]; omega
  rw [pad_eq, List.flatMap_append, packWords_flatMap_wordBytes _ hwords, ← wordBytes_length]
  rfl

/-- Settles O34: the zero bytes are `padZeros`. The bound on the length is not needed: on both sides the last eight
bytes are the low 64 bits of `8·n`. -/
theorem padAppendsMarkerZerosAndLength : Obligations.PadAppendsMarkerZerosAndLength := fun m _ =>
  ⟨pad_length m, padZeros m.length, padZeros_lt m.length, padZeros_mod m.length, pad_flatMap_wordBytes m⟩

end Sys2Proof.Machine

/-! PROOFS. The functions of CMP, bit by bit and in their equivalent forms (42_compression.md R182 to R190). -/

namespace Sys2Proof.Machine

variable {j : Nat}

/-! ### One bit of each function -/

/-- Rotation takes bit `j` from `n` places higher, cyclically (00_scope.md R8). -/
theorem rotr_getLsbD (x : Word) (n : Nat) (hn : n < 32) (hj : j < 32) :
    (rotr x n).getLsbD j = x.getLsbD ((j + n) % 32) := by
  rw [rotr, BitVec.getLsbD_rotateRight, Nat.mod_eq_of_lt hn]
  by_cases hwrap : j < 32 - n
  · rw [Nat.mod_eq_of_lt (by omega), Nat.add_comm n j]
    simp only [hwrap, decide_true, cond_true]
  · rw [show (j + n) % 32 = j - (32 - n) by omega]
    simp only [hwrap, hj, decide_false, decide_true, cond_false, Bool.true_and]

/-- The shift takes bit `j` from `n` places higher, and zeros enter at the top (R9). -/
theorem shr_getLsbD (x : Word) (n : Nat) : (shr x n).getLsbD j = (decide (j + n < 32) && x.getLsbD (j + n)) := by
  rw [shr, BitVec.getLsbD_ushiftRight, Nat.add_comm n j]
  by_cases htop : j + n < 32
  · simp only [htop, decide_true, Bool.true_and]
  · simp only [htop, decide_false, Bool.false_and]
    exact BitVec.getLsbD_of_ge _ _ (by omega)

theorem ch_getLsbD (e f g : Word) (hj : j < 32) :
    (ch e f g).getLsbD j = if e.getLsbD j = true then f.getLsbD j else g.getLsbD j := by
  simp only [ch, BitVec.getLsbD_xor, BitVec.getLsbD_and, BitVec.getLsbD_not, hj, decide_true, Bool.true_and]
  cases e.getLsbD j <;> simp

/-- A bit of `maj` is 1 when two are: `a` and `b`, or `c` and one of them. -/
theorem maj_getLsbD (a b c : Word) :
    (maj a b c).getLsbD j = ((a.getLsbD j && b.getLsbD j) || (c.getLsbD j && (a.getLsbD j || b.getLsbD j))) := by
  simp only [maj, BitVec.getLsbD_xor, BitVec.getLsbD_and]
  cases a.getLsbD j <;> cases b.getLsbD j <;> simp

/-- Settles O27: each function is an exclusive or of rotations and a shift, taken bit by bit. -/
theorem rotationSumsBitByBit : Obligations.RotationSumsBitByBit := by
  intro x j hj
  have hrot := fun n hn => rotr_getLsbD x n hn hj
  refine ⟨?_, ?_, ?_, ?_⟩
  · simp only [sigma0, BitVec.getLsbD_xor, shr_getLsbD, hrot, Nat.reduceLT]
  · simp only [sigma1, BitVec.getLsbD_xor, shr_getLsbD, hrot, Nat.reduceLT]
  · simp only [bigS0, BitVec.getLsbD_xor, hrot, Nat.reduceLT]
  · simp only [bigS1, BitVec.getLsbD_xor, hrot, Nat.reduceLT]

/-- Two bits of three, as a sum. -/
theorem two_of_three_iff (a b c : Bool) : (a && b || c && (a || b)) = true ↔ 2 ≤ a.toNat + b.toNat + c.toNat := by
  cases a <;> cases b <;> cases c <;> decide

/-- Settles O28, from the bit of each function. -/
theorem choiceAndMajorityBitByBit : Obligations.ChoiceAndMajorityBitByBit := by
  intro a b c j hj
  refine ⟨ch_getLsbD a b c hj, ?_⟩
  rw [maj_getLsbD]
  exact two_of_three_iff _ _ _

/-! ### The equivalent forms (42_compression.md R190) -/

theorem ch_eq_xor (e f g : Word) : ch e f g = g ^^^ (e &&& (f ^^^ g)) := by
  refine BitVec.eq_of_getLsbD_eq fun j hj => ?_
  rw [ch_getLsbD e f g hj, BitVec.getLsbD_xor, BitVec.getLsbD_and, BitVec.getLsbD_xor]
  cases e.getLsbD j <;> cases g.getLsbD j <;> simp

theorem ch_eq_or (e f g : Word) : ch e f g = (e &&& f) ||| (~~~e &&& g) := by
  refine BitVec.eq_of_getLsbD_eq fun j hj => ?_
  rw [ch_getLsbD e f g hj, BitVec.getLsbD_or, BitVec.getLsbD_and, BitVec.getLsbD_and, BitVec.getLsbD_not]
  cases e.getLsbD j <;> simp [hj]

/-- The two terms of `ch` never have a 1 in the same position. -/
theorem ch_terms_disjoint (e f g : Word) : (e &&& f) &&& (~~~e &&& g) = 0#32 := by
  refine BitVec.eq_of_getLsbD_eq fun j hj => ?_
  simp only [BitVec.getLsbD_and, BitVec.getLsbD_not, BitVec.getLsbD_zero]
  cases e.getLsbD j <;> simp

theorem ch_eq_add (e f g : Word) : ch e f g = (e &&& f) + (~~~e &&& g) := by
  rw [BitVec.add_eq_or_of_and_eq_zero _ _ (ch_terms_disjoint e f g), ch_eq_or]

theorem maj_eq_or (a b c : Word) : maj a b c = (a &&& b) ||| (c &&& (a ||| b)) := by
  refine BitVec.eq_of_getLsbD_eq fun j _ => ?_
  rw [maj_getLsbD, BitVec.getLsbD_or, BitVec.getLsbD_and, BitVec.getLsbD_and, BitVec.getLsbD_or]

/-- Two rotations are one by the sum of the amounts. -/
theorem rotr_rotr (x : Word) (m k : Nat) (h : m + k < 32) : rotr (rotr x m) k = rotr x (m + k) := by
  refine BitVec.eq_of_getLsbD_eq fun j hj => ?_
  rw [rotr_getLsbD _ k (by omega) hj, rotr_getLsbD x m (by omega) (by omega), rotr_getLsbD x (m + k) h hj]
  congr 1
  omega

/-- Settles O29: the sum form of `ch` because its terms share no bit, the rotations by `rotr_rotr`. -/
theorem equivalentFormsOfTheRoundFunctions : Obligations.EquivalentFormsOfTheRoundFunctions := by
  refine ⟨fun e f g => ⟨ch_eq_xor e f g, ch_eq_or e f g, ch_eq_add e f g, ch_terms_disjoint e f g⟩, maj_eq_or,
    fun x n m _ hmn hn => ?_⟩
  rw [rotr_rotr x m (n - m) (by omega), Nat.add_sub_cancel' (by omega)]

end Sys2Proof.Machine

/-! PROOFS. The schedule of a block, the micro-operations of CMP one by one, and the block dispatch as a whole
(42_compression.md R171 to R178). -/

namespace Sys2Proof.Machine

/-! ### The schedule (42_compression.md R173) -/

/-- The recurrence, one step of it at a time: the words it reads are final. -/
theorem schedule_recurrence (b : Block) (n : Nat) (h : n < 64) (h16 : 16 ≤ n) :
    (schedule b)[n] = scheduleWord (schedule b) n h := by
  obtain ⟨m, rfl⟩ := Nat.exists_eq_add_of_le h16
  rw [schedule_getElem b (m + 1) (16 + m) (by omega) h (by omega)]
  simp only [scheduleAfter_succ b _ m h, Vector.getElem_set_self]
  exact scheduleWord_congr _ _ _ h h16 fun j hj => (schedule_getElem b m j (by omega) (by omega) hj).symm

/-- Settles O31: the block's words stand from the start, the others by the recurrence. -/
theorem scheduleSatisfiesTheRecurrence : Obligations.ScheduleSatisfiesTheRecurrence := fun b =>
  ⟨fun j h => (schedule_getElem b 0 j (by omega) (by omega) h).trans (loadSchedule_low b _ j h), schedule_recurrence b⟩

/-! ### LOAD and INIT (42_compression.md R172, R175) -/

/-- Settles O22: LOAD has one branch; the low sixteen words are the block's. -/
theorem loadCopiesTheBlock : Obligations.LoadCopiesTheBlock :=
  ⟨rfl, fun s => ⟨_, Effect.load.exec_eq, loadSchedule_low s.BLK s.W, loadSchedule_high s.BLK s.W, rfl⟩⟩

/-- Settles O24: INIT has one branch. -/
theorem initCopiesTheHashState : Obligations.InitCopiesTheHashState :=
  ⟨rfl, fun _ => Effect.init.exec_eq⟩

/-! ### SCHED and ROUND (42_compression.md R174, R176, R177) -/

section
variable {s : State} {n : Nat}

theorem T_succ (hT : s.T = BitVec.ofNat 6 n) : s.T + 1 = BitVec.ofNat 6 (n + 1) := by
  rw [hT]
  exact (BitVec.ofNat_add ..).symm

/-- SCHED with `T = n` in both its branches: the schedule after one step, and the sequencer. -/
theorem exec_sched_next (h : n < 64) (h16 : 16 ≤ n) (hT : s.T = BitVec.ofNat 6 n) :
    ∃ t, exec .sched s = .next t ∧ t.W = schedStep s ∧
      if n = 63 then t = { s with W := t.W, T := 0, PHASE := .INIT }
      else t = { s with W := t.W, T := BitVec.ofNat 6 (n + 1) } := by
  have hTn : s.T.toNat = n := by rw [hT, toNat_index n h]
  split
  case isTrue hlast => exact ⟨_, (Effect.schedLast (hTn.trans hlast)).exec_eq, rfl, rfl⟩
  case isFalse hmore => exact ⟨_, (Effect.schedMore (by omega) (by omega)).exec_eq, rfl, by rw [T_succ hT]⟩

/-- ROUND with `T = n` in both its branches: the working variables after one step, and the sequencer. -/
theorem exec_round_next (h : n < 64) (hT : s.T = BitVec.ofNat 6 n) :
    ∃ t, exec .round s = .next t ∧ t.V = roundStep s ∧
      if n = 63 then t = { s with V := t.V, T := 0, PHASE := .ACCUM }
      else t = { s with V := t.V, T := BitVec.ofNat 6 (n + 1) } := by
  have hTn : s.T.toNat = n := by rw [hT, toNat_index n h]
  split
  case isTrue hlast => exact ⟨_, (Effect.roundLast (hTn.trans hlast)).exec_eq, rfl, rfl⟩
  case isFalse hmore => exact ⟨_, (Effect.roundMore (by omega)).exec_eq, rfl, by rw [T_succ hT]⟩

end

/-- Settles O23: SCHED sets the one element `n` of the schedule. -/
theorem schedComputesOneWord : Obligations.SchedComputesOneWord := by
  refine ⟨rfl, fun s n h h16 hT => ?_⟩
  obtain ⟨t, hexec, hW, hframe⟩ := exec_sched_next h h16 hT
  rw [schedStep_eq s n h (by rw [hT, toNat_index n h])] at hW
  refine ⟨t, hexec, ?_, fun j hj hne => ?_, hframe⟩
  · simp only [hW, Vector.getElem_set_self, scheduleWord]
  · simp only [hW]
    exact Vector.getElem_set_ne h hj hne.symm

/-- Settles O25: the eight lanes of the round function, all from the old variables. -/
theorem roundRotatesTheWorkingVariables : Obligations.RoundRotatesTheWorkingVariables := by
  refine ⟨rfl, fun s n h hT => ?_⟩
  obtain ⟨t, hexec, hV, hframe⟩ := exec_round_next h hT
  rw [roundStep_eq s n h (by rw [hT, toNat_index n h])] at hV
  refine ⟨t, hexec, ?_, hframe⟩
  rintro _ _ rfl rfl
  simp only [hV]
  exact ⟨rfl, rfl, rfl, rfl, rfl, rfl, rfl, rfl⟩

/-! ### ACCUM (42_compression.md R178) -/

/-- ACCUM in both its branches: the lane sums, and the sequencer with the response at `RET = REST`. -/
theorem exec_accum_next (s : State) :
    ∃ t, exec .accum s = .next t ∧ t.H = addLanes s.H s.V ∧
      if s.RET = .REST then t = { s with H := t.H, PHASE := s.RET, OUT := s.OUT ++ [0x00000000#32] }
      else t = { s with H := t.H, PHASE := s.RET } := by
  split
  case isTrue hr => exact ⟨_, (Effect.accumRest hr).exec_eq, rfl, by rw [hr]; rfl⟩
  case isFalse hr => exact ⟨_, (Effect.accumOther hr).exec_eq, rfl, rfl⟩

/-- Settles O26: each lane is the sum modulo 2^32 of the lane's two words. -/
theorem accumAddsTheLanes : Obligations.AccumAddsTheLanes := by
  refine ⟨rfl, fun s => ?_⟩
  obtain ⟨t, hexec, hH, hframe⟩ := exec_accum_next s
  refine ⟨t, hexec, fun j hj => ?_, hframe⟩
  simp only [hH, addLanes_getElem, BitVec.toNat_add]

/-! ### The block dispatch (42_compression.md R171, R180) -/

/-- Settles O44: the 115 micro-steps of `run_dispatch`. -/
theorem blockDispatchCompressesTheBlock : Obligations.BlockDispatchCompressesTheBlock :=
  fun _ _ hp hin => run_dispatch hin hp

end Sys2Proof.Machine

/-! PROOFS. The encoder: one step by value, and the eight steps as a whole (43_encoder.md R211 to R214). -/

namespace Sys2Proof.Machine

/-! ### One character (43_encoder.md R211, R212) -/

/-- A hex digit by value: digit `j` is the digit of weight `16 ^ (7 - j)`. -/
theorem nibbleOf_toNat_hex (w : Word) (j : Nat) : (nibbleOf w j).toNat = w.toNat / 16 ^ (7 - j) % 16 := by
  have hweight : 2 ^ (28 - 4 * j) = 16 ^ (7 - j) := by
    rw [show 28 - 4 * j = 4 * (7 - j) by omega, Nat.pow_mul]
  rw [nibbleOf_toNat, hweight]

/-- The place `8n + j` of the digest holds digit `j` of the word written at place `n`. -/
theorem writeHex_digit (d : Digest) (n : Nat) (w : Word) (j : Nat) (hj : j < 8) (hk : 8 * n + j < 64) :
    (writeHex d n w)[8 * n + j] = hexchar (nibbleOf w j) := by
  rw [writeHex_in d n w (8 * n + j) hk (by omega), show (8 * n + j) % 8 = j by omega]

/-! ### One step (43_encoder.md R214) -/

section
variable {s : State}

theorem encStep_eq (n : Nat) (h : n < 8) (hT : s.T.toNat = n) :
    encStep s (by omega) = writeHex s.DIGEST n s.H[n] := by
  subst hT
  rfl

/-- ENC with `T = n` in both its branches: the digest after one step, and the sequencer. -/
theorem exec_enc_next {n : Nat} (h : n < 8) (hT : s.T = BitVec.ofNat 6 n) :
    ∃ t, exec .enc s = .next t ∧ t.DIGEST = writeHex s.DIGEST n s.H[n] ∧
      if n = 7 then t = { s with
        DIGEST := t.DIGEST, T := 0, OPEN := false, DONE := true, PHASE := .REST, OUT := s.OUT ++ [0x00000000#32] }
      else t = { s with DIGEST := t.DIGEST, T := BitVec.ofNat 6 (n + 1) } := by
  have hTn : s.T.toNat = n := by rw [hT, toNat_index n (by omega)]
  have hd := encStep_eq n h hTn
  split
  case isTrue hlast => exact ⟨_, execEnc_last (hTn.trans hlast), hd, rfl⟩
  case isFalse hmore => exact ⟨_, execEnc_more (by omega), hd, by rw [T_succ hT]⟩

end

/-- Settles O32: ENC writes the word `n` of the digest, and each character has the value of its digit. -/
theorem encWritesEightCharacters : Obligations.EncWritesEightCharacters := by
  refine ⟨rfl, fun s n hn hT => ?_⟩
  obtain ⟨t, hexec, hD, hframe⟩ := exec_enc_next hn hT
  refine ⟨t, hexec, ?_, fun k hk hne => ?_, hframe⟩
  · rintro j hj _ rfl
    simp only [hD, writeHex_digit _ n _ j hj, hexchar_toNat, nibbleOf_toNat_hex]
  · simp only [hD, writeHex_out _ n _ k hk hne]

/-! ### The eight steps (43_encoder.md R212, R214) -/

section
variable {s : State}

/-- The last step completes the digest, when the characters before its own are written. -/
theorem encStep_last (hT : s.T.toNat = 7)
    (hd : ∀ k : Nat, ∀ h : k < 64, k < 8 * s.T.toNat → s.DIGEST[k] = (encodeDigest s.H)[k]) :
    encStep s (by omega) = encodeDigest s.H :=
  Vector.ext fun k hk => encStep_written (by omega) hd k hk (by omega)

/-- The state in which FINAL is complete: the digest of the Hash State, the message DONE, and the response. -/
def encoded (s : State) : State :=
  { s with
    DIGEST := encodeDigest s.H, T := 0, OPEN := false, DONE := true, PHASE := .REST, OUT := s.OUT ++ [0x00000000#32] }

/-- From `k` steps before the last, the encoder completes the digest, when the characters of the steps before are
written. -/
theorem run_enc {ws : List Word} (k : Nat) (hin : s.IN = ws.map .command) (hp : s.PHASE = .ENC)
    (hT : s.T.toNat + k = 7)
    (hd : ∀ j : Nat, ∀ h : j < 64, j < 8 * s.T.toNat → s.DIGEST[j] = (encodeDigest s.H)[j]) :
    Sys2Proof.core.run (k + 1) s = .next (encoded s) := by
  have hop : s.PHASE.microOp = .ok .enc := by rw [hp]; rfl
  induction k generalizing s with
  | zero =>
    have hexec : exec .enc s = .next (encoded s) := by
      rw [encoded, ← encStep_last hT hd]
      exact execEnc_last hT
    exact run_busy 0 s _ .enc ws hop hin hexec
  | succ k ih =>
    have hT1 := T_succ_toNat (s := s) (by omega)
    have hend : encoded { s with DIGEST := encStep s (by omega), T := s.T + 1 } = encoded s := by simp only [encoded]
    rw [run_busy (k + 1) s _ .enc ws hop hin (execEnc_more (by omega)), ← hend]
    refine ih hin hp (by simp only [hT1]; omega) (fun j hj hlt => encStep_written (by omega) hd j hj ?_) hop
    simpa only [hT1] using hlt

end

/-- Settles O45: at `T = 0` no character has to be written yet, and seven steps come before the last. -/
theorem eightEncoderStepsEncodeTheHashState : Obligations.EightEncoderStepsEncodeTheHashState := by
  intro s ws hp hT hin
  exact (run_enc 7 hin hp (by simp [hT]) (by simp [hT])).trans (by rw [encoded, ← hT])

end Sys2Proof.Machine

/-! PROOFS. The acceptance of a command word, and the commands one by one (44_commands.md R230 to R254). -/

namespace Sys2Proof.Machine

/-! ### The accepted word (44_commands.md R230, R254) -/

/-- Settles O5: `step_command` at a word that decodes. -/
theorem stepRunsTheAcceptedCommand : Obligations.StepRunsTheAcceptedCommand := by
  intro s w rest i hp hin hd
  rw [step_command s w rest hp hin, hd]

/-- A word that spells no command is accepted and answered. -/
theorem step_illegal {s : State} {w : Word} {rest : List HostInput} {e : Illegal} (hp : s.PHASE = .REST)
    (hin : s.IN = .command w :: rest) (hd : decodeWord w = .error e) :
    step s = .next (answerIllegal { s with IN := rest }) := by
  simp only [step_command s w rest hp hin, hd]

/-- Settles O8: the word matches no row of the opcode table, so by O2 the decoder rejects it. -/
theorem illegalWordIsAnsweredAndChangesNothing : Obligations.IllegalWordIsAnsweredAndChangesNothing := by
  intro s w rest hp hin hnop hstart hchar hfinal hrdchr hrdstat hclear
  obtain ⟨-, -, -, -, -, -, -, herror⟩ := wordSpellsCommandByMaskAndMatch w
  rw [show w &&& 0xFFFFFFFF#32 = w from BitVec.and_allOnes] at herror
  obtain ⟨e, he⟩ := herror.2 ⟨hnop, hstart, hchar, hfinal, hrdchr, hrdstat, hclear⟩
  exact step_illegal hp hin he

/-! ### Commands with one branch (44_commands.md R232, R247, R250, R252) -/

/-- Settles O11: NOP has one branch. -/
theorem nopRespondsOkAndChangesNothing : Obligations.NopRespondsOkAndChangesNothing :=
  ⟨decode_encode .nop, fun _ => Effect.nop.exec_eq⟩

/-- Settles O12: START has one branch, and the ROM holds the eight words. -/
theorem startOpensAMessage : Obligations.StartOpensAMessage :=
  ⟨decode_encode .start, fun _ => Effect.start.exec_eq⟩

/-- Settles O17: CLEAR has one branch. -/
theorem clearReturnsToIdle : Obligations.ClearReturnsToIdle :=
  ⟨decode_encode .clear, fun _ => Effect.clear.exec_eq⟩

/-- The word of an OK response has the value of its data. -/
theorem responseWord_ok (data : BitVec 28) : responseWord .OK data = data.setWidth 32 := by
  apply BitVec.eq_of_toNat_eq
  have := data.isLt
  rw [responseWord_toNat, BitVec.toNat_setWidth, Nat.mod_eq_of_lt (by omega)]
  exact Nat.zero_add _

/-- Settles O16: RDSTAT has one branch; the status is that of the message state, and the invariant gives one. -/
theorem rdstatReturnsTheStatus : Obligations.RdstatReturnsTheStatus := by
  refine ⟨decode_encode .rdstat, fun s => ⟨_, Effect.rdstat.exec_eq, ?_, fun hs => ?_⟩⟩
  · rw [responseWord_toNat, status_toNat]
    exact Nat.zero_add _
  · obtain ⟨m, hm⟩ := Option.ne_none_iff_exists'.1 hs.oneFlag
    rw [status_of_msgState s m hm, hm]
    cases m <;> decide

/-! ### RDCHR (44_commands.md R245) -/

theorem rdchrWord_eq (n : BitVec 6) : 0x40000000#32 ||| n.setWidth 32 = formatC 4 (n.setWidth 24) := by
  have hn := n.isLt
  apply BitVec.eq_of_toNat_eq
  rw [formatC_toNat, BitVec.toNat_or, BitVec.toNat_setWidth, BitVec.toNat_setWidth, Nat.mod_eq_of_lt (by omega),
    Nat.mod_eq_of_lt (by omega)]
  exact (Nat.two_pow_add_eq_or_of_lt (i := 30) (by omega) 1).symm

/-- The word of a digest character is the character, zero-extended (30_encoding.md R96). -/
theorem responseWord_character (b : Byte) : responseWord .OK (b.setWidth 28) = b.setWidth 32 := by
  rw [responseWord_ok, BitVec.setWidth_setWidth (by decide)]

/-- Settles O15: the two branches of RDCHR, a digest or none. -/
theorem rdchrReturnsTheCharacter : Obligations.RdchrReturnsTheCharacter := by
  refine ⟨fun n => ?_, fun s n h => ?_⟩
  · rw [rdchrWord_eq]
    exact decode_encode (.rdchr n)
  · split
    case isTrue hd =>
      rw [(Effect.rdchrDone n hd).exec_eq, respond, responseWord_character]
      rfl
    case isFalse hd => exact (Effect.rdchrNone n (Bool.eq_false_iff.2 hd)).exec_eq

/-! ### FINAL and CHAR (44_commands.md R231, R235, R240) -/

/-- Settles O14: the three branches of FINAL, in the order of its checks. -/
theorem finalFollowsItsChecks : Obligations.FinalFollowsItsChecks := by
  refine ⟨decode_encode .final, fun s => ?_⟩
  split
  case isTrue he => exact (Effect.finalFailed he).exec_eq
  case isFalse he =>
    split
    case isTrue ho => exact (Effect.finalClosed (Bool.eq_false_iff.2 he) ho).exec_eq
    case isFalse ho => exact (Effect.finalOpen (Bool.eq_false_iff.2 he) (Bool.eq_true_of_not_eq_false ho)).exec_eq

/-- Settles O13: the five branches of CHAR, in the order of its checks; an accepted byte is pushed and counted. -/
theorem charFollowsItsChecks : Obligations.CharFollowsItsChecks := by
  refine ⟨decodeWord_charWord, fun s c => ?_⟩
  split
  case isTrue he => exact (Effect.charFailed c he).exec_eq
  case isFalse he =>
    have he := Bool.eq_false_iff.2 he
    split
    case isTrue ho => exact (Effect.charClosed c he ho).exec_eq
    case isFalse ho =>
      have ho := Bool.eq_true_of_not_eq_false ho
      split
      case isTrue hc => exact (Effect.charRejected c he ho hc).exec_eq
      case isFalse hc =>
        obtain ⟨hpk, hbp, hblk⟩ := acceptByte_pushed (elemByte c) s
        have hcount := acceptByte_N_toNat (elemByte c) s
        rw [← elemByte_eq c]
        by_cases hb : s.BP.toNat = 63
        · exact ⟨_, (Effect.charFull c he ho (by omega) hb).exec_eq, ⟨hpk, hbp, hblk⟩, hcount,
            by rw [if_pos hb]; rfl⟩
        · exact ⟨_, (Effect.charPushed c he ho (by omega) hb).exec_eq, ⟨hpk, hbp, hblk⟩, hcount,
            by rw [if_neg hb]; rfl⟩

end Sys2Proof.Machine

/-! PROOFS. FINAL from its acceptance to its response: padding, the dispatches of the last blocks, and the encoder
(41_preprocessor.md R143 to R147, 70_reset_and_hazards.md R321). -/

namespace Sys2Proof.Machine

/-! ### One padding byte, its dispatch included -/

/-- The state after the padding byte `b`, back in PAD00: when the byte fills the block, its dispatch is over
(41_preprocessor.md R143). -/
def fed (b : Byte) (s : State) : State :=
  if s.BP.toNat = 63 then dispatched (dispatch .PAD00 (push b s)) else goto .PAD00 (push b s)

/-- The micro-steps of a padding byte. -/
def fedSteps (s : State) : Nat := if s.BP.toNat = 63 then 116 else 1

/-- What padding leaves as it was: the ports, the count that LEN writes, and the flag `ERR`. -/
structure SameMessage (s t : State) : Prop where
  input : t.IN = s.IN
  output : t.OUT = s.OUT
  count : t.N = s.N
  failed : t.ERR = s.ERR

theorem SameMessage.trans {s t u : State} (h : SameMessage s t) (h' : SameMessage t u) : SameMessage s u :=
  ⟨h'.input.trans h.input, h'.output.trans h.output, h'.count.trans h.count, h'.failed.trans h.failed⟩

theorem fed_sameMessage (b : Byte) (s : State) : SameMessage s (fed b s) := by
  unfold fed
  split <;> exact ⟨rfl, rfl, rfl, rfl⟩

theorem fed_PHASE (b : Byte) (s : State) : (fed b s).PHASE = .PAD00 := by
  unfold fed
  split <;> rfl

theorem fed_BP (b : Byte) (s : State) : (fed b s).BP.toNat = (s.BP.toNat + 1) % 64 := by
  rw [← (push_pushed b s).pointer, fed]
  split <;> rfl

/-- A micro-operation that pushes `b`, and dispatches the block when the byte fills it, feeds `b`. -/
theorem run_fed {s : State} {ws : List Word} {i : Instr} (b : Byte) (k : Nat) (hin : s.IN = ws.map .command)
    (hop : s.PHASE.microOp = .ok i)
    (hfull : s.BP.toNat = 63 → exec i s = .next (dispatch .PAD00 (push b s)))
    (hmore : s.BP.toNat ≠ 63 → exec i s = .next (goto .PAD00 (push b s))) :
    Sys2Proof.core.run (fedSteps s + k) s = Sys2Proof.core.run k (fed b s) := by
  unfold fedSteps fed
  split
  case isTrue hb =>
    rw [show 116 + k = 115 + k + 1 by omega, run_busy _ s _ i ws hop hin (hfull hb)]
    exact run_add _ _ _ _ (run_dispatch hin rfl)
  case isFalse hb => rw [Nat.add_comm, run_busy k s _ i ws hop hin (hmore hb)]

/-! ### The zero bytes (41_preprocessor.md R146, R149) -/

/-- The state after `z` zero bytes. -/
def fedZeros : Nat → State → State
  | 0, s => s
  | z + 1, s => fedZeros z (fed 0x00 s)

theorem fedZeros_sameMessage (z : Nat) (s : State) : SameMessage s (fedZeros z s) := by
  induction z generalizing s with
  | zero => exact ⟨rfl, rfl, rfl, rfl⟩
  | succ z ih => exact (fed_sameMessage 0x00 s).trans (ih _)

theorem fedZeros_PHASE (z : Nat) {s : State} (hp : s.PHASE = .PAD00) : (fedZeros z s).PHASE = .PAD00 := by
  induction z generalizing s with
  | zero => exact hp
  | succ z ih => exact ih (fed_PHASE 0x00 s)

theorem fedZeros_BP (z : Nat) (s : State) : (fedZeros z s).BP.toNat = (s.BP.toNat + z) % 64 := by
  have := s.BP.isLt
  induction z generalizing s with
  | zero => show s.BP.toNat = _; omega
  | succ z ih =>
    show (fedZeros z (fed 0x00 s)).BP.toNat = _
    rw [ih _ (BitVec.isLt _), fed_BP]
    omega

/-- The zero bytes up to the length field take a step each, and a dispatch when the length field lies in the next
block. -/
theorem run_fedZeros {s : State} {ws : List Word} (z k : Nat) (hin : s.IN = ws.map .command) (hp : s.PHASE = .PAD00)
    (hz : z < 64) (hBP : (s.BP.toNat + z) % 64 = 56) :
    Sys2Proof.core.run ((if s.BP.toNat ≤ 56 then z else z + 115) + k) s = Sys2Proof.core.run k (fedZeros z s) := by
  have hlt := s.BP.isLt
  induction z generalizing s with
  | zero => rw [if_pos (by omega), Nat.zero_add]; rfl
  | succ z ih =>
    have hne : s.BP.toNat ≠ 56 := by omega
    have hfed := fed_BP 0x00 s
    have hstep := run_fed 0x00 ((if (fed 0x00 s).BP.toNat ≤ 56 then z else z + 115) + k) hin
      (show s.PHASE.microOp = .ok .pad00 by rw [hp]; rfl) (fun hb => (Effect.pad00Full hb).exec_eq)
      (fun hb => (Effect.pad00Pushed hne hb).exec_eq)
    rw [ih ((fed_sameMessage 0x00 s).input.trans hin) (fed_PHASE 0x00 s) (by omega) (by omega) (BitVec.isLt _)] at hstep
    refine Eq.trans (congrArg (Sys2Proof.core.run · s) ?_) hstep
    unfold fedSteps
    split_ifs <;> omega

/-! ### The whole of FINAL -/

/-- The state in LOAD after LEN has written the length words (41_preprocessor.md R147). -/
def lengthWritten (s : State) : State :=
  dispatch .ENC { s with BLK := (s.BLK.set 14 (lengthHigh s.N)).set 15 (lengthLow s.N), BP := 0 }

/-- The state after the marker byte and the zero bytes up to the length field. -/
def padFilled (s : State) : State := fedZeros (padZeros s.BP.toNat) (fed 0x80 s)

/-- The state in which FINAL is complete, from the state in PAD80 that its acceptance leaves. -/
def closed (s : State) : State := encoded (dispatched (lengthWritten (padFilled s)))

theorem padFilled_sameMessage (s : State) : SameMessage s (padFilled s) :=
  (fed_sameMessage 0x80 s).trans (fedZeros_sameMessage _ _)

theorem padFilled_PHASE (s : State) : (padFilled s).PHASE = .PAD00 := fedZeros_PHASE _ (fed_PHASE 0x80 s)

theorem padFilled_BP (s : State) : (padFilled s).BP.toNat = 56 := by
  rw [padFilled, fedZeros_BP, fed_BP, padZeros]
  omega

theorem closed_IN (s : State) : (closed s).IN = s.IN := (padFilled_sameMessage s).input

theorem closed_OUT (s : State) : (closed s).OUT = s.OUT ++ [0x00000000#32] :=
  congrArg (· ++ [0x00000000#32]) (padFilled_sameMessage s).output

theorem closed_msgState {s : State} (he : s.ERR = false) : (closed s).msgState = some .DONE :=
  (msgState_eq_some _ .DONE).2 ⟨rfl, rfl, (padFilled_sameMessage s).failed.trans he⟩

/-- The micro-steps of FINAL after its acceptance, by the byte pointer (70_reset_and_hazards.md R321). -/
theorem run_final {s : State} {ws : List Word} (hin : s.IN = ws.map .command) (hp : s.PHASE = .PAD80) :
    Sys2Proof.core.run (if s.BP.toNat ≤ 55 then 181 - s.BP.toNat else 360 - s.BP.toNat) s = .next (closed s) := by
  have hlt := s.BP.isLt
  have hfed := fed_BP 0x80 s
  have hfill := (padFilled_sameMessage s).input.trans hin
  have hsteps : (if s.BP.toNat ≤ 55 then 181 - s.BP.toNat else 360 - s.BP.toNat) = fedSteps s +
      ((if (fed 0x80 s).BP.toNat ≤ 56 then padZeros s.BP.toNat else padZeros s.BP.toNat + 115) + 125) := by
    unfold fedSteps padZeros
    split_ifs <;> omega
  calc Sys2Proof.core.run (if s.BP.toNat ≤ 55 then 181 - s.BP.toNat else 360 - s.BP.toNat) s
    _ = Sys2Proof.core.run _ (fed 0x80 s) := by
      rw [hsteps]
      exact run_fed 0x80 _ hin (by rw [hp]; rfl) (fun hb => (Effect.pad80Full hb).exec_eq)
        fun hb => (Effect.pad80Pushed hb).exec_eq
    _ = Sys2Proof.core.run 125 (padFilled s) :=
      run_fedZeros _ 125 ((fed_sameMessage 0x80 s).input.trans hin) (fed_PHASE 0x80 s) (padZeros_lt _)
        (by rw [hfed, padZeros]; omega)
    _ = Sys2Proof.core.run 124 (goto .LEN (padFilled s)) :=
      run_busy 124 _ _ .pad00 ws (by rw [padFilled_PHASE]; rfl) hfill (Effect.pad00Found (padFilled_BP s)).exec_eq
    _ = Sys2Proof.core.run 123 (lengthWritten (goto .LEN (padFilled s))) :=
      run_busy 123 _ _ .len ws rfl hfill Effect.len.exec_eq
    _ = Sys2Proof.core.run 8 (dispatched (lengthWritten (padFilled s))) :=
      run_add 115 8 _ _ (run_dispatch hfill rfl)
    _ = .next (closed s) := run_enc 7 hfill rfl rfl (by simp [dispatched])

end Sys2Proof.Machine

/-! PROOFS. Every command completes with one response (44_commands.md R256, 70_reset_and_hazards.md R321). -/

namespace Sys2Proof.Machine

/-! ### A state in which a command is accepted -/

/-- At REST in the message state `m`; in an open message `BP = N mod 64` (10_state.md R40). -/
structure Ready (m : MsgState) (s : State) : Prop where
  rest : s.PHASE = .REST
  message : s.msgState = some m
  pointer : s.OPEN = true → s.BP.toNat = s.N.toNat % 64

theorem Ready.respond {m : MsgState} {s : State} (h : Ready m s) (rc : Rc) (data : BitVec 28) :
    Ready m (respond rc data s) := ⟨h.rest, h.message, h.pointer⟩

theorem Ready.withInput {m : MsgState} {s : State} (h : Ready m s) (inp : List HostInput) :
    Ready m { s with IN := inp } := ⟨h.rest, h.message, h.pointer⟩

/-- In a message state whose flag `OPEN` is 0 the pointer does not matter. -/
theorem ready_of_not_open {m : MsgState} {s : State} (hp : s.PHASE = .REST) (hm : s.msgState = some m)
    (ho : s.OPEN = false) : Ready m s := ⟨hp, hm, by simp [ho]⟩

/-- The exception leaves the state ERR (60_exceptions.md R272). -/
theorem Ready.raiseInvalidInput {s : State} (h : Ready .OPEN s) : Ready .ERR (raiseInvalidInput s) := by
  obtain ⟨-, hd, -⟩ := (msgState_eq_open s).1 h.message
  exact ready_of_not_open h.rest ((msgState_eq_some _ .ERR).2 ⟨rfl, hd, rfl⟩) rfl

section
variable {m : MsgState} {s : State} (h : Ready m s)
include h

theorem Ready.failed_iff : s.ERR = true ↔ m = .ERR := by
  rw [((msgState_eq_some s m).1 h.message).2.2, decide_eq_true_iff]

theorem Ready.open_iff : s.OPEN = true ↔ m = .OPEN := by
  rw [((msgState_eq_some s m).1 h.message).1, decide_eq_true_iff]

theorem Ready.done_iff : s.DONE = true ↔ m = .DONE := by
  rw [((msgState_eq_some s m).1 h.message).2.1, decide_eq_true_iff]

end

/-! ### The completion of each command -/

/-- `i`, accepted in `s` in the message state `m`, is complete in `t`: the message state and the one response are those
of the table (44_commands.md R256), and no other input is taken. -/
structure Completed (s : State) (m : MsgState) (i : Instr) (t : State) : Prop where
  ready : Ready (m.after i) t
  input : t.IN = s.IN
  output : t.OUT = s.OUT ++ [responseWord (m.answer i) (s.answerData m i)]

/-- A command that keeps the message state and only responds. -/
theorem completed_respond {s : State} {m : MsgState} {i : Instr} {rc : Rc} {data : BitVec 28} (h : Ready m s)
    (hafter : m.after i = m) (hrc : m.answer i = rc) (hdata : s.answerData m i = data) :
    Completed s m i (respond rc data s) := by
  subst hrc hdata
  exact ⟨by rw [hafter]; exact h.respond _ _, rfl, rfl⟩

/-- A command without micro-steps is complete when it is accepted. -/
theorem completes_at_once {s t : State} {m : MsgState} {i : Instr} (hk : commandSteps s i = 0) (h : Completed s m i t) :
    ∃ u, Sys2Proof.core.run (commandSteps s i) t = .next u ∧ Completed s m i u :=
  ⟨t, by rw [hk, run_zero], h⟩

/-- From its acceptance every command runs for the micro-steps of R321 and is then complete. -/
theorem Effect.completes {s t : State} {m : MsgState} {i : Instr} {ws : List Word} (h : Effect s i t) (hs : Ready m s)
    (hi : i.onPort = true) (hin : s.IN = ws.map .command) :
    ∃ u, Sys2Proof.core.run (commandSteps s i) t = .next u ∧ Completed s m i u := by
  have hopen := hs.open_iff
  have hfail := hs.failed_iff
  have hdone := hs.done_iff
  cases h with
  | nop => exact completes_at_once rfl (completed_respond hs rfl rfl rfl)
  | start => exact completes_at_once rfl ⟨⟨hs.rest, rfl, fun _ => rfl⟩, rfl, rfl⟩
  | clear => exact completes_at_once rfl ⟨ready_of_not_open hs.rest rfl rfl, rfl, rfl⟩
  | rdstat => exact completes_at_once rfl (completed_respond hs rfl rfl (status_of_msgState s m hs.message).symm)
  | rdchrDone n hd =>
    obtain rfl := hdone.1 hd
    exact completes_at_once rfl (completed_respond hs rfl rfl rfl)
  | rdchrNone n hd =>
    have hm : m ≠ .DONE := fun hm => by simp [hdone.2 hm] at hd
    exact completes_at_once rfl (completed_respond hs rfl (if_neg hm) (if_neg hm))
  | charFailed c he | finalFailed he =>
    obtain rfl := hfail.1 he
    exact completes_at_once (by simp [commandSteps, he]) (completed_respond hs rfl rfl rfl)
  | charClosed c he ho =>
    have hm : m ≠ .OPEN := fun hm => by simp [hopen.2 hm] at ho
    have hm' : m ≠ .ERR := fun hm => by simp [hfail.2 hm] at he
    exact completes_at_once (by simp [commandSteps, ho])
      (completed_respond hs (if_neg fun h => hm h.1) ((if_neg hm').trans (if_pos hm)) rfl)
  | finalClosed he ho =>
    have hm : m ≠ .OPEN := fun hm => by simp [hopen.2 hm] at ho
    have hm' : m ≠ .ERR := fun hm => by simp [hfail.2 hm] at he
    exact completes_at_once (by simp [commandSteps, ho])
      (completed_respond hs (if_neg hm) ((if_neg hm').trans (if_pos hm)) rfl)
  | charRejected c he ho hc =>
    obtain rfl := hopen.1 ho
    have hafter : MsgState.OPEN.after (.char c) = .ERR := if_pos ⟨rfl, hc⟩
    have hrc : MsgState.OPEN.answer (.char c) = .INVALID_INPUT := if_pos hc
    exact completes_at_once (if_neg (by omega)) ⟨by rw [hafter]; exact hs.raiseInvalidInput, rfl, by rw [hrc]; rfl⟩
  | charPushed c he ho hc hb =>
    obtain rfl := hopen.1 ho
    have hafter : MsgState.OPEN.after (.char c) = .OPEN := if_neg (by omega)
    have hrc : MsgState.OPEN.answer (.char c) = .OK := if_neg (by omega)
    refine completes_at_once (by simp [commandSteps, hb]) ⟨?_, rfl, by rw [hrc]; rfl⟩
    rw [hafter]
    exact ⟨hs.rest, hs.message, fun _ => acceptByte_countPointer (elemByte c) (hs.pointer ho)⟩
  | charFull c he ho hc hb =>
    obtain rfl := hopen.1 ho
    have hafter : MsgState.OPEN.after (.char c) = .OPEN := if_neg (by omega)
    have hrc : MsgState.OPEN.answer (.char c) = .OK := if_neg (by omega)
    have hout : (dispatched (dispatch .REST (acceptByte (elemByte c) s))).OUT = s.OUT ++ [responseWord .OK 0] := rfl
    refine ⟨dispatched (dispatch .REST (acceptByte (elemByte c) s)), ?_, ?_, rfl, by rw [hrc]; exact hout⟩
    · rw [show commandSteps s (.char c) = 115 from if_pos ⟨he, ho, hc, hb⟩]
      exact run_dispatch hin rfl
    · rw [hafter]
      exact ⟨rfl, hs.message, fun _ => acceptByte_countPointer (elemByte c) (hs.pointer ho)⟩
  | finalOpen he ho =>
    obtain rfl := hopen.1 ho
    have hout : (closed (goto .PAD80 s)).OUT = s.OUT ++ [responseWord .OK 0] := closed_OUT _
    refine ⟨closed (goto .PAD80 s), ?_, ready_of_not_open rfl (closed_msgState he) rfl, closed_IN _, hout⟩
    rw [show commandSteps s .final = _ from if_pos ⟨he, ho⟩, ← hs.pointer ho]
    exact run_final (s := goto .PAD80 s) hin rfl
  | _ => cases hi

/-- A command has no index, so it has a next state in every state. -/
theorem indexInRange_of_onPort (s : State) {i : Instr} (hi : i.onPort = true) : indexInRange s i := by
  constructor <;> rintro rfl <;> cases hi

/-- An offered command is accepted and completes. -/
theorem run_command {s : State} {w : Word} {ws : List Word} {m : MsgState} {i : Instr} (hs : Ready m s)
    (hin : s.IN = .command w :: ws.map .command) (hd : decodeWord w = .ok i) :
    ∃ u, Sys2Proof.core.run (1 + commandSteps s i) s = .next u ∧
      Completed { s with IN := ws.map .command } m i u := by
  have hi := decodeWord_onPort w i hd
  obtain ⟨t, ht⟩ := exists_effect { s with IN := ws.map .command } i (indexInRange_of_onPort _ hi)
  obtain ⟨u, hu, hdone⟩ := ht.completes (hs.withInput _) hi rfl
  rw [Nat.add_comm]
  exact ⟨u, (run_accepted _ s t w i _ hs.rest hin hd ht.exec_eq).trans hu, hdone⟩

/-- Settles O46: an illegal word is answered at once, and a command completes as `run_command` says. -/
theorem everyCommandCompletesWithOneResponse : Obligations.EveryCommandCompletesWithOneResponse := by
  intro s w ws m hs hp hm hin
  rw [microSteps]
  cases hd : decodeWord w with
  | error e =>
    refine ⟨answerIllegal { s with IN := ws.map .command }, ?_, hp, rfl, hm, rfl⟩
    exact (run_one s).trans (step_illegal hp hin hd)
  | ok i =>
    obtain ⟨u, hu, hdone⟩ := run_command ⟨hp, hm, fun ho => hs.countPointer ho (.inl hp)⟩ hin hd
    exact ⟨u, hu, hdone.ready.rest, hdone.input, hdone.ready.message, hdone.output⟩

end Sys2Proof.Machine

/-! PROOFS. The Hash State that FINAL leaves is that of the padded message (41_preprocessor.md R150, 44_commands.md
R260). -/

namespace Sys2Proof.Machine

/-! ### The length words (41_preprocessor.md R148) -/

theorem lengthValue_ofNat (n : Nat) : lengthValue (BitVec.ofNat 61 n) = BitVec.ofNat 64 (8 * n) := by
  apply BitVec.eq_of_toNat_eq
  rw [lengthValue_toNat, BitVec.toNat_ofNat, BitVec.toNat_ofNat]
  omega

/-- The padded message ends in the words that LEN writes. -/
theorem pad_eq_lengthWords (m : List Byte) : pad m =
    packWords (marked m) ++ [lengthHigh (BitVec.ofNat 61 m.length), lengthLow (BitVec.ofNat 61 m.length)] := by
  rw [pad_eq, ← lengthValue_ofNat]
  rfl

/-! ### The last block -/

/-- Fourteen words of bytes and the two length words, as the packed block. -/
theorem lastBlock_eq (b : Block) (tl : List Byte) (x y : Word) (htl : tl.length = 56)
    (hb : ∀ q : Nat, ∀ h : q / 4 < 16, q / 4 < 14 → byteOf b[q / 4] (q % 4) = tl.getD q 0) :
    (b.set 14 x).set 15 y = blockOf (packWords tl ++ [x, y]) := by
  have hlen : (packWords tl).length = 14 := by rw [packWords_length, htl]
  refine Vector.ext fun j hj => ?_
  rw [blockOf_getElem _ _ hj]
  by_cases hj14 : j < 14
  · rw [Vector.getElem_set_ne _ _ (by omega), Vector.getElem_set_ne _ _ (by omega),
      List.getD_append _ _ _ _ (by omega)]
    refine eq_of_bytes _ _ fun k hk => ?_
    have hq := hb (4 * j + k) (by omega) (by omega)
    simp only [show (4 * j + k) / 4 = j by omega, show (4 * j + k) % 4 = k by omega] at hq
    rw [hq, packWords_byte tl (by omega) j k hk (by omega)]
  · rw [List.getD_append_right _ _ _ _ (by omega), hlen]
    obtain rfl | rfl : j = 14 ∨ j = 15 := by omega
    · rw [Vector.getElem_set_ne _ _ (by omega), Vector.getElem_set_self]
      rfl
    · rw [Vector.getElem_set_self]
      rfl

/-- The chaining value after the dispatch of the last block, the length words in its last two elements. -/
theorem State.Tracks.chain_length {l : List Byte} {s : State} (h : s.Tracks l) (h56 : l.length % 64 = 56) (x y : Word) :
    compress s.H ((s.BLK.set 14 x).set 15 y) = compressAll romHINIT (packWords l ++ [x, y]) := by
  have hpre : (l.take (64 * (l.length / 64))).length = 64 * (l.length / 64) := by rw [List.length_take]; omega
  have htl : (l.drop (64 * (l.length / 64))).length = 56 := by rw [List.length_drop]; omega
  have hblk : (s.BLK.set 14 x).set 15 y = blockOf (packWords (l.drop (64 * (l.length / 64))) ++ [x, y]) := by
    refine lastBlock_eq _ _ _ _ htl fun q hq h14 => ?_
    rw [h.block q hq (by omega)]
    simp only [List.getD_eq_getElem?_getD, List.getElem?_drop]
  calc compress s.H ((s.BLK.set 14 x).set 15 y)
    _ = compressAll romHINIT (packWords (l.take (64 * (l.length / 64))) ++
          (packWords (l.drop (64 * (l.length / 64))) ++ [x, y])) := by
      rw [compressAll_append _ _ _ (by rw [packWords_length]; omega), ← h.chain, hblk,
        compressAll_block _ _ (by rw [List.length_append, packWords_length, htl]; rfl)]
    _ = compressAll romHINIT (packWords l ++ [x, y]) := by
      rw [← List.append_assoc, ← packWords_append _ _ (by omega), List.take_append_drop]

/-! ### The padding engine extends the tracked bytes -/

/-- The hidden state holds the bytes `l`, of which padding may be a part: as `State.Tracks`, whatever `PHASE` and the
count `N` of message bytes are. -/
def Absorbed (l : List Byte) (s : State) : Prop :=
  State.Tracks l { s with PHASE := .REST, N := BitVec.ofNat 61 l.length }

theorem State.Tracks.absorbed {l : List Byte} {s : State} (h : s.Tracks l) (p : Phase) : Absorbed l (goto p s) :=
  ⟨rfl, h.opened, rfl, h.pointer, h.chain, h.block, h.packer⟩

theorem Absorbed.fed {l : List Byte} {s : State} (h : Absorbed l s) (b : Byte) : Absorbed (l ++ [b]) (fed b s) := by
  unfold Machine.fed
  split
  case isTrue hb =>
    obtain ⟨-, hopen, -, hbp, hchain, hblk, hpk⟩ := State.Tracks.dispatched h b hb
    exact ⟨rfl, hopen, rfl, hbp, hchain, hblk, hpk⟩
  case isFalse hb =>
    obtain ⟨-, hopen, -, hbp, hchain, hblk, hpk⟩ := State.Tracks.acceptByte h b hb
    exact ⟨rfl, hopen, rfl, hbp, hchain, hblk, hpk⟩

theorem Absorbed.fedZeros {l : List Byte} {s : State} (h : Absorbed l s) (z : Nat) :
    Absorbed (l ++ List.replicate z 0x00) (fedZeros z s) := by
  induction z generalizing l s with
  | zero => rwa [List.replicate_zero, List.append_nil]
  | succ z ih =>
    have hz := ih (h.fed 0x00)
    rwa [List.append_assoc, List.singleton_append, ← List.replicate_succ] at hz

/-- Before LEN the hidden state holds the marked message. -/
theorem State.Tracks.padFilled {m : List Byte} {s : State} (h : s.Tracks m) :
    Absorbed (marked m) (padFilled (goto .PAD80 s)) := by
  have hz : padZeros m.length = padZeros (goto .PAD80 s).BP.toNat := by
    rw [goto_BP, h.pointer_toNat, padZeros, padZeros, Nat.mod_mod]
  rw [marked, hz]
  exact ((h.absorbed .PAD80).fed 0x80).fedZeros _

/-- FINAL leaves the digest of the message (44_commands.md R260). -/
theorem State.Tracks.closed_DIGEST {m : List Byte} {s : State} (h : s.Tracks m) :
    (closed (goto .PAD80 s)).DIGEST = digestOf m := by
  have hN : (Machine.padFilled (goto .PAD80 s)).N = BitVec.ofNat 61 m.length :=
    (padFilled_sameMessage _).count.trans h.count
  have hlen : (marked m).length % 64 = 56 := by rw [marked_length, padZeros_mod]
  rw [digestOf, pad_eq_lengthWords, ← State.Tracks.chain_length h.padFilled hlen, ← hN]
  rfl

end Sys2Proof.Machine

/-! PROOFS. Command streams, and the hash contract (44_commands.md R260, R261, 30_encoding.md R105). -/

namespace Sys2Proof.Machine

/-! ### Runs of some number of steps -/

/-- `t` is reached from `s` after some number of steps. -/
def Reaches (s t : State) : Prop := ∃ k, Sys2Proof.core.run k s = .next t

theorem Reaches.refl (s : State) : Reaches s s := ⟨0, run_zero s⟩

theorem Reaches.trans {s t u : State} : Reaches s t → Reaches t u → Reaches s u
  | ⟨j, hj⟩, ⟨k, hk⟩ => ⟨j + k, (run_add j k s t hj).trans hk⟩

/-! ### Streams on the port (30_encoding.md R104, R105) -/

/-- The host offers the command words of the stream `p`, and nothing else. -/
def Offers (p : List Instr) (s : State) : Prop := s.IN = (portWords p).map .command

theorem encode_of_onPort {i : Instr} (hi : i.onPort = true) : ∃ w, encode i = .port w := by
  cases i with
  | nop | start | char | final | rdchr | rdstat | clear => exact ⟨_, rfl⟩
  | _ => cases hi

/-- The first command of a stream is at the port, the others wait behind it. -/
theorem Offers.head {i : Instr} {p : List Instr} {s : State} (h : Offers (i :: p) s) (hi : i.onPort = true) :
    ∃ w, encode i = .port w ∧ decodeWord w = .ok i ∧ s.IN = .command w :: (portWords p).map .command := by
  obtain ⟨w, hw⟩ := encode_of_onPort hi
  have hdec := decode_encode i
  rw [hw] at hdec
  refine ⟨w, hw, hdec, h.trans ?_⟩
  rw [portWords, List.filterMap_cons_some (show portWord i = some w by rw [portWord, hw])]
  rfl

theorem Offers.nil {s : State} (h : Offers [] s) : s.IN = [] := h

/-- One command of a stream, by one of its branches. -/
theorem reaches_effect {i : Instr} {p : List Instr} {s t : State} (hp : s.PHASE = .REST) (hi : i.onPort = true)
    (hin : Offers (i :: p) s) (h : Effect { s with IN := (portWords p).map .command } i t) : Reaches s t := by
  obtain ⟨w, -, hd, hw⟩ := hin.head hi
  exact ⟨1, (run_accepted 0 s t w i _ hp hw hd h.exec_eq).trans (run_zero t)⟩

/-- One command of a stream, with the answer of the table. -/
theorem reaches_command {m : MsgState} {i : Instr} {p : List Instr} {s : State} (hs : Ready m s) (hi : i.onPort = true)
    (hin : Offers (i :: p) s) :
    ∃ t, Reaches s t ∧ Ready (m.after i) t ∧ Offers p t ∧
      t.OUT = s.OUT ++ [responseWord (m.answer i) (s.answerData m i)] := by
  obtain ⟨w, -, hd, hw⟩ := hin.head hi
  obtain ⟨t, ht, hdone⟩ := run_command hs hw hd
  exact ⟨t, ⟨_, ht⟩, hdone.ready, hdone.input, hdone.output⟩

/-- A command that in the message state `m` changes no message state and is answered `rc` without data. -/
structure Steady (m : MsgState) (rc : Rc) (i : Instr) : Prop where
  onPort : i.onPort = true
  message : m.after i = m
  answer : m.answer i = rc
  data : ∀ s : State, s.answerData m i = 0

/-- A stream of such commands is answered alike throughout. -/
theorem reaches_steady {m : MsgState} {rc : Rc} {p q : List Instr} {s : State} (hs : Ready m s)
    (hp : ∀ i ∈ p, Steady m rc i) (hin : Offers (p ++ q) s) :
    ∃ t, Reaches s t ∧ Ready m t ∧ Offers q t ∧ t.OUT = s.OUT ++ List.replicate p.length (responseWord rc 0) := by
  induction p generalizing s with
  | nil => exact ⟨s, .refl s, hs, hin, (List.append_nil _).symm⟩
  | cons i p ih =>
    obtain ⟨hi, hmsg, hrc, hdata⟩ := hp i List.mem_cons_self
    obtain ⟨u, hsu, hu, hinu, houtu⟩ := reaches_command hs hi hin
    rw [hmsg] at hu
    obtain ⟨t, hut, ht, hint, houtt⟩ := ih hu (fun j hj => hp j (List.mem_cons_of_mem i hj)) hinu
    refine ⟨t, hsu.trans hut, ht, hint, ?_⟩
    rw [houtt, houtu, hrc, hdata, List.append_assoc, List.singleton_append, List.length_cons, List.replicate_succ]

/-! ### The commands of a message -/

/-- START, from any state at REST. -/
theorem reaches_start {p : List Instr} {s : State} (hp : s.PHASE = .REST) (hin : Offers (.start :: p) s) :
    ∃ t, Reaches s t ∧ t.Tracks [] ∧ Offers p t ∧ t.OUT = s.OUT ++ [0x00000000#32] :=
  ⟨_, reaches_effect hp rfl hin .start, start_tracks _ hp, rfl, rfl⟩

theorem State.Tracks.ready {m : List Byte} {s : State} (h : s.Tracks m) : Ready .OPEN s := by
  refine ⟨h.rest, h.opened, fun _ => ?_⟩
  rw [h.pointer_toNat, h.count, BitVec.toNat_ofNat]
  omega

/-- The elements of a message, all bytes: the hidden state tracks them (10_state.md R40). -/
theorem reaches_chars {l : List Byte} {m : List Elem} {p : List Instr} {s : State} (hs : s.Tracks l)
    (hm : ∀ c ∈ m, c.toNat ≤ 255) (hin : Offers (m.map .char ++ p) s) :
    ∃ t, Reaches s t ∧ t.Tracks (l ++ m.map elemByte) ∧ Offers p t ∧
      t.OUT = s.OUT ++ List.replicate m.length 0x00000000#32 := by
  induction m generalizing l s with
  | nil => exact ⟨s, .refl s, by simpa using hs, hin, (List.append_nil _).symm⟩
  | cons c m ih =>
    obtain ⟨w, hw, -, hcmd⟩ := hin.head rfl
    obtain rfl : formatC 2 c = w := Encoded.port.inj hw
    rw [← charWord_eq] at hcmd
    obtain ⟨k, u, -, hsu, hu, hinu, houtu⟩ := hiddenStateTracksTheMessage.2 l s c _ hs (hm c List.mem_cons_self) hcmd
    obtain ⟨t, hut, ht, hint, houtt⟩ := ih hu (fun d hd => hm d (List.mem_cons_of_mem c hd)) hinu
    refine ⟨t, .trans ⟨k, hsu⟩ hut, ?_, hint, ?_⟩
    · rwa [← elemByte_eq, List.append_assoc, List.singleton_append] at ht
    · rw [houtt, houtu, List.append_assoc, List.singleton_append, List.length_cons, List.replicate_succ]

/-- An element that is no byte fails an open message (60_exceptions.md R272). -/
theorem reaches_rejected {c : Elem} {p : List Instr} {s : State} (hs : Ready .OPEN s) (hc : 255 < c.toNat)
    (hin : Offers (.char c :: p) s) :
    ∃ t, Reaches s t ∧ Ready .ERR t ∧ Offers p t ∧ t.OUT = s.OUT ++ [0x10000000#32] := by
  obtain ⟨ho, -, he⟩ := (msgState_eq_open s).1 hs.message
  exact ⟨_, reaches_effect hs.rest rfl hin (.charRejected c he ho hc), (hs.withInput _).raiseInvalidInput, rfl, rfl⟩

/-- FINAL of a tracked message: its digest. -/
theorem reaches_final {l : List Byte} {p : List Instr} {s : State} (hs : s.Tracks l) (hin : Offers (.final :: p) s) :
    ∃ t, Reaches s t ∧ Ready .DONE t ∧ t.DIGEST = digestOf l ∧ Offers p t ∧ t.OUT = s.OUT ++ [0x00000000#32] := by
  have hs' := hs.withInput ((portWords p).map .command)
  obtain ⟨ho, -, he⟩ := hs'.flags
  refine ⟨closed (goto .PAD80 { s with IN := (portWords p).map .command }),
    (reaches_effect hs.rest rfl hin (.finalOpen he ho)).trans ⟨_, run_final (ws := portWords p) rfl rfl⟩,
    ready_of_not_open rfl (closed_msgState he) rfl, hs'.closed_DIGEST, closed_IN _, closed_OUT _⟩

/-- Reading characters of a digest (44_commands.md R245). -/
theorem reaches_rdchrs {is : List (BitVec 6)} {s : State} (hs : Ready .DONE s) (hin : Offers (is.map .rdchr) s) :
    ∃ t, Reaches s t ∧ Ready .DONE t ∧ Offers [] t ∧
      t.OUT = s.OUT ++ is.map fun i => (readDigest s.DIGEST i).setWidth 32 := by
  induction is generalizing s with
  | nil => exact ⟨s, .refl s, hs, hin, (List.append_nil _).symm⟩
  | cons i is ih =>
    have hsu := reaches_effect hs.rest rfl hin (.rdchrDone i (hs.done_iff.2 rfl))
    obtain ⟨t, hut, ht, hint, hout⟩ := ih ((hs.withInput _).respond _ _) rfl
    refine ⟨t, hsu.trans hut, ht, hint, ?_⟩
    rw [hout, respond_OUT, responseWord_character, List.append_assoc, List.singleton_append, List.map_cons]
    rfl

theorem rddig_eq : Pseudo.rddig = ((List.range 64).map (BitVec.ofNat 6)).map .rdchr := by
  rw [Pseudo.rddig, List.map_map]
  rfl

/-- The 64 characters in index order are the digest. -/
theorem map_readDigest (d : Digest) :
    ((List.range 64).map (BitVec.ofNat 6)).map (fun i => (readDigest d i).setWidth 32) =
      d.toList.map fun b => b.setWidth 32 := by
  rw [List.map_map]
  refine List.ext_getElem (by simp) fun j hj hj' => ?_
  have h64 : j < 64 := by simpa using hj
  simp [readDigest, Nat.mod_eq_of_lt h64]

/-- RDDIG reads the whole digest (30_encoding.md R105). -/
theorem reaches_rddig {s : State} (hs : Ready .DONE s) (hin : Offers Pseudo.rddig s) :
    ∃ t, Reaches s t ∧ Ready .DONE t ∧ Offers [] t ∧ t.OUT = s.OUT ++ s.DIGEST.toList.map fun b => b.setWidth 32 := by
  rw [rddig_eq] at hin
  rw [← map_readDigest]
  exact reaches_rdchrs hs hin

/-! ### The hash contract (44_commands.md R260, R261) -/

theorem outOfRange_iff (c : Elem) : outOfRange c = true ↔ 255 < c.toNat := decide_eq_true_iff

theorem hashOf_valid {m : List Elem} (hm : ∀ c ∈ m, c.toNat ≤ 255) :
    hashOf m = .digest (digestOf (m.map elemByte)) := by
  refine if_neg fun h => ?_
  obtain ⟨c, hc, hbad⟩ := List.any_eq_true.1 h
  exact Nat.not_lt.2 (hm c hc) ((outOfRange_iff c).1 hbad)

theorem hashOf_invalid {m : List Elem} {c : Elem} (hc : c ∈ m) (hbad : 255 < c.toNat) : hashOf m = .invalidInput :=
  if_pos (List.any_eq_true.2 ⟨c, hc, (outOfRange_iff c).2 hbad⟩)

/-- `MSGX` and `RDDIG` as one stream (30_encoding.md R105). -/
theorem msgx_append (m : List Elem) (p : List Instr) :
    Pseudo.msgx m ++ p = .start :: (m.map .char ++ .final :: p) := by
  simp [Pseudo.msgx]

/-- Settles O49: START, the elements, FINAL and the 64 reads, one after the other. The bound on the length is not
needed: `N` and the length words of `pad` wrap alike. -/
theorem commandsRealiseHashOfAValidMessage : Obligations.CommandsRealiseHashOfAValidMessage := by
  intro s m hp _ hm hin
  rw [msgx_append] at hin
  obtain ⟨s1, h1, ht1, hin1, hout1⟩ := reaches_start hp hin
  obtain ⟨s2, h2, ht2, hin2, hout2⟩ := reaches_chars ht1 hm hin1
  obtain ⟨s3, h3, hr3, hd3, hin3, hout3⟩ := reaches_final ht2 hin2
  obtain ⟨t, h4, hr4, hin4, hout4⟩ := reaches_rddig hr3 hin3
  obtain ⟨k, hk⟩ := ((h1.trans h2).trans h3).trans h4
  refine ⟨k, t, _, hk, hashOf_valid hm, hin4.nil, hr4.rest, hr4.message, ?_⟩
  rw [hout4, hd3, hout3, hout2, hout1, List.nil_append, List.replicate_succ, List.replicate_succ']
  simp only [List.append_assoc, List.cons_append, List.nil_append]

/-- A failed message answers every later element and FINAL alike (60_exceptions.md R276). -/
theorem steady_failed {after : List Elem} {i : Instr} (h : i ∈ after.map Instr.char ++ [.final]) :
    Steady .ERR .INVALID_INPUT i := by
  obtain ⟨d, -, rfl⟩ | rfl := by simpa using h
  · exact ⟨rfl, rfl, rfl, fun _ => rfl⟩
  · exact ⟨rfl, rfl, rfl, fun _ => rfl⟩

/-- A failed message has no digest. -/
theorem steady_rddig {i : Instr} (h : i ∈ Pseudo.rddig) : Steady .ERR .SEQ i := by
  obtain ⟨n, -, rfl⟩ := List.mem_map.1 h
  exact ⟨rfl, rfl, rfl, fun _ => rfl⟩

/-- Settles O50: up to the first bad element every answer is OK; it fails the message, and in the state ERR the answers
to the other elements, to FINAL and to the reads are fixed. -/
theorem commandsRejectAnInvalidMessage : Obligations.CommandsRejectAnInvalidMessage := by
  intro s before after c hp hbefore hc hin
  have hin : Offers
      (.start :: (before.map .char ++ .char c :: ((after.map .char ++ [.final]) ++ (Pseudo.rddig ++ [])))) s := by
    rw [msgx_append] at hin
    simpa [Offers] using hin
  obtain ⟨s1, h1, ht1, hin1, hout1⟩ := reaches_start hp hin
  obtain ⟨s2, h2, ht2, hin2, hout2⟩ := reaches_chars ht1 hbefore hin1
  obtain ⟨s3, h3, hr3, hin3, hout3⟩ := reaches_rejected ht2.ready hc hin2
  obtain ⟨s4, h4, hr4, hin4, hout4⟩ := reaches_steady hr3 (fun _ => steady_failed) hin3
  obtain ⟨t, h5, hr5, hin5, hout5⟩ := reaches_steady hr4 (fun _ => steady_rddig) hin4
  obtain ⟨k, hk⟩ := (((h1.trans h2).trans h3).trans h4).trans h5
  refine ⟨k, t, hk, hashOf_invalid (by simp) hc, hin5.nil, hr5.rest, hr5.message, ?_⟩
  rw [hout5, hout4, hout3, hout2, hout1, Nat.add_comm 1, List.replicate_succ, List.replicate_succ, List.length_append,
    List.length_map]
  simp only [List.append_assoc, List.cons_append, List.nil_append]
  rfl

end Sys2Proof.Machine

/-! PROOFS. Nothing stops the machine, and a failed message stays failed (60_exceptions.md R276, R278, R285). -/

namespace Sys2Proof.Machine

/-! ### Every step has a next state (60_exceptions.md R285) -/

/-- What the sequencer runs in a state of the invariant has a next state: its index is in range (20_memory.md R74). -/
theorem exists_exec_of_nextStep {s : State} {i : Instr} (h : s.Inv) (hn : nextStep s = .run i) :
    ∃ t, exec i (consumeInput s) = .next t := by
  have hp : s.PHASE = phaseOf i := phaseOf_nextStep hn
  obtain ⟨t, ht⟩ := exists_effect (consumeInput s) i (h.consumeInput.indexInRange hp)
  exact ⟨t, ht.exec_eq⟩

/-- Settles O37: reset, rest and the answer to an illegal word are next states at once, and an instruction has one by
`exists_exec_of_nextStep`. -/
theorem noStepStopsTheMachine : Obligations.NoStepStopsTheMachine := by
  intro s hs
  unfold step
  cases hn : nextStep s with
  | reset | rest | illegal => exact ⟨_, rfl⟩
  | run i => exact exists_exec_of_nextStep hs hn

/-! ### The state ERR is sticky (60_exceptions.md R276, R278) -/

/-- With `ERR = 1` a command other than START and CLEAR only responds. -/
theorem Effect.eq_respond_of_failed {s t : State} {i : Instr} (h : Effect s i t) (hs : s.ERR = true)
    (hi : i.onPort = true) (hstart : i ≠ .start) (hclear : i ≠ .clear) : ∃ rc data, t = respond rc data s := by
  cases h with
  | start => exact absurd rfl hstart
  | clear => exact absurd rfl hclear
  | nop | charFailed | finalFailed | rdchrDone | rdchrNone | rdstat => exact ⟨_, _, rfl⟩
  | charClosed _ he | charRejected _ he | charFull _ he | charPushed _ he | finalClosed he | finalOpen he =>
    exact absurd hs (Bool.eq_false_iff.1 he)
  | _ => cases hi

/-- Settles O42: a command has a branch in every state, and in the state ERR that branch only responds. -/
theorem failureIsStickyUntilStartOrClear : Obligations.FailureIsStickyUntilStartOrClear := by
  intro s i hm hi hstart hclear
  obtain ⟨-, -, he⟩ := (msgState_eq_some s .ERR).1 hm
  obtain ⟨t, ht⟩ := exists_effect s i (indexInRange_of_onPort s hi)
  obtain ⟨rc, data, rfl⟩ := ht.eq_respond_of_failed he hi hstart hclear
  exact ⟨responseWord rc data, ht.exec_eq⟩

end Sys2Proof.Machine

/-! PROOFS. Reset in every state, and the digest of a finished message (70_reset_and_hazards.md R300, R301, R312). -/

namespace Sys2Proof.Machine

/-- Settles O9: the step is `takeReset`, which writes every register of the control state. -/
theorem resetTakesPriorityInEveryState : Obligations.ResetTakesPriorityInEveryState := fun s rest hin =>
  ⟨takeReset { s with IN := rest }, step_reset s rest hin, rfl, rfl, rfl, rfl, rfl, rfl, rfl, rfl, rfl, rfl,
    rfl, rfl, rfl, rfl⟩

/-- START and CLEAR are the only instructions that take `DONE` back to 0 (10_state.md R31). -/
theorem Effect.DONE_iff {s t : State} {i : Instr} (h : Effect s i t) (hd : s.DONE = true) :
    t.DONE = true ↔ i ≠ .start ∧ i ≠ .clear := by
  cases h with
  | start | clear | encLast => simp
  | _ => simp [hd]

/-- Settles O43: a command has a branch in every state, only ENC writes `DIGEST`, and only START and CLEAR take `DONE`
back. -/
theorem digestStaysReadableUntilStartOrClear : Obligations.DigestStaysReadableUntilStartOrClear := by
  intro s i hm hi
  obtain ⟨-, hd, -⟩ := (msgState_eq_some s .DONE).1 hm
  obtain ⟨t, ht⟩ := exists_effect s i (indexInRange_of_onPort s hi)
  have hdigest : t.DIGEST = s.DIGEST := ht.DIGEST_kept_or.resolve_right (by rintro rfl; cases hi)
  exact ⟨t, ht.exec_eq, hdigest, ht.DONE_iff hd⟩

end Sys2Proof.Machine

/-! PROOFS. A command is busy until the last of its micro-steps (70_reset_and_hazards.md R321, 10_state.md R37, R39).
The count of R321 is read off every state of a run: `stepsLeft` is 0 at REST, is the count of R321 when a command is
accepted, and falls by one in every micro-step. -/

namespace Sys2Proof.Machine

/-! ### The micro-steps that are left -/

/-- The micro-steps that are left after a block dispatch, by the phase that it continues in: all of the padding of an
empty block, the encoder, or none (10_state.md R35). -/
def stepsAfterDispatch : Phase → Nat
  | .PAD00 => 181
  | .ENC => 8
  | .REST | .PAD80 | .LEN | .LOAD | .SCHED | .INIT | .ROUND | .ACCUM => 0

/-- The micro-steps that are left of the command in progress. -/
def stepsLeft (s : State) : Nat :=
  match s.PHASE with
  | .REST => 0
  | .PAD80 => if s.BP.toNat ≤ 55 then 181 - s.BP.toNat else 360 - s.BP.toNat
  | .PAD00 => if s.BP.toNat ≤ 56 then 181 - s.BP.toNat else 360 - s.BP.toNat
  | .LEN => 124
  | .LOAD => 115 + stepsAfterDispatch s.RET
  | .SCHED => 130 - s.T.toNat + stepsAfterDispatch s.RET
  | .INIT => 66 + stepsAfterDispatch s.RET
  | .ROUND => 65 - s.T.toNat + stepsAfterDispatch s.RET
  | .ACCUM => 1 + stepsAfterDispatch s.RET
  | .ENC => 8 - s.T.toNat

theorem stepsLeft_rest {s : State} (hp : s.PHASE = .REST) : stepsLeft s = 0 := by
  rw [stepsLeft, hp]

/-- Where a dispatch ends, `BP` and `T` are 0, so what is left is what `stepsAfterDispatch` says of `RET`. -/
theorem State.Inv.stepsLeft_leave {s : State} (h : s.Inv) (hp : s.PHASE = .ACCUM) (w : Words8) :
    stepsLeft (goto s.RET { s with H := w }) = stepsAfterDispatch s.RET := by
  have hT : s.T = 0 := h.index_zero hp rfl
  have hBP : s.BP = 0 := h.blockPointer (by rw [hp]; rfl)
  rcases h.returnPhase with hr | hr | hr <;> simp [stepsLeft, stepsAfterDispatch, hr, hT, hBP]

/-- Every micro-operation takes one of the steps that are left. -/
theorem Effect.stepsLeft_succ {s t : State} {i : Instr} (h : Effect s i t) (hs : s.Inv) (hp : s.PHASE = phaseOf i)
    (hi : i.onPort = false) : stepsLeft t + 1 = stepsLeft s := by
  have hBP := s.BP.isLt
  cases h with
  | pad80Full hb | pad00Full hb => simp [stepsLeft, stepsAfterDispatch, hp, phaseOf, hb]
  | pad80Pushed hb | pad00Pushed hne hb =>
    have hsucc : (s.BP + 1).toNat = s.BP.toNat + 1 := by bv_omega
    simp only [stepsLeft, hp, phaseOf, goto_PHASE, goto_BP, push_BP, hsucc]
    split_ifs <;> omega
  | pad00Found hb => simp [stepsLeft, hp, phaseOf, hb]
  | len => simp [stepsLeft, stepsAfterDispatch, hp, phaseOf]
  | load | init =>
    simp only [stepsLeft, hp, phaseOf, goto_PHASE, goto_T, goto_RET, BitVec.ofNat_eq_ofNat, BitVec.toNat_ofNat]
    omega
  | schedLast hT | roundLast hT =>
    simp only [stepsLeft, hp, phaseOf, goto_PHASE, goto_RET, hT]
    omega
  | schedMore _ hT | roundMore hT | encMore _ hT =>
    have hsucc : (s.T + 1).toNat = s.T.toNat + 1 := T_succ_toNat (by omega)
    simp only [stepsLeft, hp, phaseOf, hsucc]
    omega
  | accumRest hr => simp [stepsLeft, stepsAfterDispatch, hp, phaseOf, hr]
  | accumOther =>
    rw [hs.stepsLeft_leave hp, stepsLeft, hp]
    exact Nat.add_comm _ 1
  | encLast _ hT => simp [stepsLeft, hp, phaseOf, hT]
  | _ => cases hi

/-- When a command is accepted, the count of R321 is left. -/
theorem Effect.stepsLeft_accepted {s t : State} {i : Instr} (h : Effect s i t) (hs : s.Inv) (hp : s.PHASE = .REST)
    (hi : i.onPort = true) : stepsLeft t = commandSteps s i := by
  cases h with
  | nop | start | rdchrDone | rdchrNone | rdstat | clear => exact stepsLeft_rest hp
  | charFailed c he | finalFailed he => simp [commandSteps, stepsLeft_rest, hp, he]
  | charClosed c he ho | finalClosed he ho => simp [commandSteps, stepsLeft_rest, hp, ho]
  | charRejected c he ho hc => simp [commandSteps, stepsLeft_rest, hp, Nat.not_le.2 hc]
  | charPushed c he ho hc hb => simp [commandSteps, stepsLeft_rest, hp, hb]
  | charFull c he ho hc hb => exact (if_pos ⟨he, ho, hc, hb⟩).symm
  | finalOpen he ho =>
    rw [show commandSteps s .final = _ from if_pos ⟨he, ho⟩, ← hs.countPointer ho (.inl hp)]
    rfl
  | _ => cases hi

/-! ### Along a run -/

/-- A busy step takes one of the steps that are left, and no offered word. -/
theorem step_stepsLeft {s t : State} {ws : List Word} (hs : s.Inv) (hp : s.PHASE ≠ .REST)
    (hin : s.IN = ws.map .command) (h : step s = .next t) : t.IN = ws.map .command ∧ stepsLeft t + 1 = stepsLeft s := by
  obtain ⟨i, hi, hport⟩ := exists_microOp hp
  have he : Effect s i t := effect_of_exec ((step_busy s i ws hi hin).symm.trans h)
  exact ⟨he.IN_free_kept.1.trans hin, he.stepsLeft_succ hs (phaseOf_microOp hi) hport⟩

/-- `k` steps of a command in progress take `k` of the steps that are left. -/
theorem run_stepsLeft {s t : State} {ws : List Word} {k : Nat} (hs : s.Inv) (hin : s.IN = ws.map .command)
    (hk : k ≤ stepsLeft s) (h : Sys2Proof.core.run k s = .next t) : stepsLeft t + k = stepsLeft s := by
  induction k generalizing s with
  | zero => cases h; rfl
  | succ k ih =>
    have hp : s.PHASE ≠ .REST := fun hp => by simp [stepsLeft_rest hp] at hk
    obtain ⟨u, hu⟩ := noStepStopsTheMachine s hs
    obtain ⟨hin', hleft⟩ := step_stepsLeft hs hp hin hu
    rw [run_succ_of_step k s u hu] at h
    have := ih (everyStepKeepsTheInvariant s u hs hu) hin' (by omega) h
    omega

theorem microSteps_ok (s : State) {w : Word} {i : Instr} (hd : decodeWord w = .ok i) :
    microSteps s w = commandSteps s i := by
  rw [microSteps, hd]

theorem microSteps_error (s : State) {w : Word} {e : Illegal} (hd : decodeWord w = .error e) : microSteps s w = 0 := by
  rw [microSteps, hd]

/-- Settles O47: the accepted command has the count of R321 left (`Effect.stepsLeft_accepted`), and as long as steps are
left (`run_stepsLeft`) the machine is not at REST. -/
theorem commandIsBusyUntilItsLastMicroStep : Obligations.CommandIsBusyUntilItsLastMicroStep := by
  intro s w ws hs hp hin k t hk1 hk hrun
  obtain ⟨j, rfl⟩ := Nat.exists_eq_add_of_le' hk1
  cases hd : decodeWord w with
  | error e =>
    rw [microSteps_error s hd] at hk
    omega
  | ok i =>
    rw [microSteps_ok s hd] at hk
    have hi := decodeWord_onPort w i hd
    have hs' : State.Inv { s with IN := ws.map .command } := hs.of_ports _ _
    obtain ⟨u, hu⟩ := exists_effect { s with IN := ws.map .command } i (indexInRange_of_onPort _ hi)
    rw [run_accepted j s u w i _ hp hin hd hu.exec_eq] at hrun
    have hcount : stepsLeft u = commandSteps s i := hu.stepsLeft_accepted hs' hp hi
    have hu' : u.Inv := hs'.effect (hp.trans (phaseOf_onPort hi).symm) hu
    have hleft := run_stepsLeft hu' hu.IN_free_kept.1 (by omega) hrun
    exact decide_eq_false fun hrest => by
      have := stepsLeft_rest hrest
      omega

end Sys2Proof.Machine
